-- ==== Sys2Proof/Word.lean ====
section
/-! DEFINITION. The bit widths of the block (00_scope.md R6, R7, R8; 10_state.md section 6). -/

namespace Sys2Proof

/-- The data unit: 8 bits (R6). -/
abbrev Byte := BitVec 8

/-- A 16-bit word, and an address as a handler sees it (R8, R52). -/
abbrev Word := BitVec 16

/-- An address operand before masking, `ADDR_IN_W` = 32 bits (R7, R83). -/
abbrev RawAddr := BitVec 32

/-- The memoized effective address, `EA_W` = 17 bits (R31). -/
abbrev EffAddr := BitVec 17

/-- A handler identifier, `HID_W` = 12 bits (R29, R84). -/
abbrev HandlerId := BitVec 12

/-- A command word, `CW_W` = 48 bits (R81). -/
abbrev CmdWord := BitVec 48

end Sys2Proof
end

