-- ==== Sys2Proof/Machine/Flags.lean ====
section
/-! DEFINITION. The block has no condition codes (10_state.md R35); the one flag it computes is the
page crossing of 41_resolver.md R131. -/

namespace Sys2Proof.Machine

/-- The page of an address: `a[15:8]` (00_scope.md section 6). -/
def pageOf (w : Word) : Byte := w.extractLsb' 8 8

/-- `CROSS(w, i)`: the high byte differs before and after adding the index (R131). -/
def cross (w : Word) (i : Byte) : Bool := pageOf w != pageOf (w + i.setWidth 16)

end Sys2Proof.Machine
end

