-- ==== Sys2Proof/Syntax.lean ====
section
/-! DEFINITION. The commands of the block: addressing modes (30_encoding.md R87), the descriptor
(R85, R86) and `Instr`, one constructor per row of spec/opcode_table.json, and one more for each of
`readOperand` and `writeOperand` with a `MODE` outside the enumeration (R95; log 11). -/

namespace Sys2Proof

/-- The eleven members of AddressingMode in the source's order (R87), and `outside`, a value 11 to
15 of the `MODE` field, which is no member (R95). -/
inductive Mode where
  | none
  | direct
  | immediate
  | zeroPage
  | absolute
  | zeroPageX
  | zeroPageY
  | absoluteX
  | absoluteY
  | indirectX
  | indirectY
  | outside (code : BitVec 4)
  deriving DecidableEq, Repr, Inhabited

/-- The InstructionDefinition: exactly three fields (R6, R85). -/
structure Descriptor where
  mode : Mode
  pbp  : Bool   -- pageBoundaryPenalty
  rmw  : Bool   -- isReadModifyWrite
  deriving DecidableEq, Repr, Inhabited

/-- The commands (R82). `pbp` and `rmw` are the descriptor bits of an operand command (R85). -/
inductive Instr where
  | read (addr : RawAddr)
  | write (addr : RawAddr) (data : Byte)
  | installReadHandler (start stop : Word) (hid : HandlerId)
  | installWriteHandler (start stop : Word) (hid : HandlerId)
  | readOperandNone (pbp rmw : Bool)
  | readOperandDir (pbp rmw : Bool)
  | readOperandImm (pbp rmw : Bool)
  | readOperandZp (pbp rmw : Bool)
  | readOperandAbs (pbp rmw : Bool)
  | readOperandZpx (pbp rmw : Bool)
  | readOperandZpy (pbp rmw : Bool)
  | readOperandAbsx (pbp rmw : Bool)
  | readOperandAbsy (pbp rmw : Bool)
  | readOperandIndx (pbp rmw : Bool)
  | readOperandIndy (pbp rmw : Bool)
  | readOperandOutside (code : BitVec 4) (pbp rmw : Bool)
  | writeOperandNone (pbp rmw : Bool) (data : Byte)
  | writeOperandDir (pbp rmw : Bool) (data : Byte)
  | writeOperandImm (pbp rmw : Bool) (data : Byte)
  | writeOperandZp (pbp rmw : Bool) (data : Byte)
  | writeOperandAbs (pbp rmw : Bool) (data : Byte)
  | writeOperandZpx (pbp rmw : Bool) (data : Byte)
  | writeOperandZpy (pbp rmw : Bool) (data : Byte)
  | writeOperandAbsx (pbp rmw : Bool) (data : Byte)
  | writeOperandAbsy (pbp rmw : Bool) (data : Byte)
  | writeOperandIndx (pbp rmw : Bool) (data : Byte)
  | writeOperandIndy (pbp rmw : Bool) (data : Byte)
  | writeOperandOutside (code : BitVec 4) (pbp rmw : Bool) (data : Byte)
  | resetForNextInstruction
  | push (data : Byte)
  | pop
  | pushWord (word : Word)
  | popWord
  deriving DecidableEq, Repr, Inhabited

/-- The descriptor a `readOperand` command carries, none for every other command. -/
def Instr.readDescriptor : Instr → Option Descriptor
  | .readOperandNone p r => some ⟨.none, p, r⟩
  | .readOperandDir p r => some ⟨.direct, p, r⟩
  | .readOperandImm p r => some ⟨.immediate, p, r⟩
  | .readOperandZp p r => some ⟨.zeroPage, p, r⟩
  | .readOperandAbs p r => some ⟨.absolute, p, r⟩
  | .readOperandZpx p r => some ⟨.zeroPageX, p, r⟩
  | .readOperandZpy p r => some ⟨.zeroPageY, p, r⟩
  | .readOperandAbsx p r => some ⟨.absoluteX, p, r⟩
  | .readOperandAbsy p r => some ⟨.absoluteY, p, r⟩
  | .readOperandIndx p r => some ⟨.indirectX, p, r⟩
  | .readOperandIndy p r => some ⟨.indirectY, p, r⟩
  | .readOperandOutside c p r => some ⟨.outside c, p, r⟩
  | _ => Option.none

/-- The descriptor and the byte a `writeOperand` command carries, none for every other command. -/
def Instr.writeDescriptor : Instr → Option (Descriptor × Byte)
  | .writeOperandNone p r v => some (⟨.none, p, r⟩, v)
  | .writeOperandDir p r v => some (⟨.direct, p, r⟩, v)
  | .writeOperandImm p r v => some (⟨.immediate, p, r⟩, v)
  | .writeOperandZp p r v => some (⟨.zeroPage, p, r⟩, v)
  | .writeOperandAbs p r v => some (⟨.absolute, p, r⟩, v)
  | .writeOperandZpx p r v => some (⟨.zeroPageX, p, r⟩, v)
  | .writeOperandZpy p r v => some (⟨.zeroPageY, p, r⟩, v)
  | .writeOperandAbsx p r v => some (⟨.absoluteX, p, r⟩, v)
  | .writeOperandAbsy p r v => some (⟨.absoluteY, p, r⟩, v)
  | .writeOperandIndx p r v => some (⟨.indirectX, p, r⟩, v)
  | .writeOperandIndy p r v => some (⟨.indirectY, p, r⟩, v)
  | .writeOperandOutside c p r v => some (⟨.outside c, p, r⟩, v)
  | _ => Option.none

/-- The descriptor of an operand command of either kind. -/
def Instr.descriptor (i : Instr) : Option Descriptor :=
  i.readDescriptor.or (i.writeDescriptor.map Prod.fst)

end Sys2Proof
end

