-- ==== Sys2Proof/Config.lean ====
section
/-! DEFINITION. What the spec leaves to the implementation or the environment: the launch
parameters (00_scope.md R7), the descriptor table (R86), and the free values (93, U2, U3, U6).
Every constant here is opaque: nothing can be proved of its value. -/

namespace Sys2Proof

/-- The launch parameters `RESET_PC`, `RESET_A`, `RESET_X`, `RESET_Y`, `RESET_SP`, `RESET_CYC`
(R7, R37). DESIGN CHOICE, log 5. -/
opaque Config.resetPc : Word
opaque Config.resetA : Byte
opaque Config.resetX : Byte
opaque Config.resetY : Byte
opaque Config.resetSp : Byte
opaque Config.resetCyc : Nat

/-- `OPDEF`, the 256-entry table from opcode byte to descriptor (R7, R86). The executor consults it,
the block never does (R86); log 19. -/
opaque Config.opdef : Byte → Descriptor

/-- `any_byte()`, "a byte under no law" (R9, R161 corner case c, U3). Free value, log 4. -/
opaque Config.anyByte : Nat → Byte

/-- The answer of a handler to a bus read when the answers listed in the state have run out
(R57, U6). Free value, log 3. -/
opaque Config.busAnswer : Nat → Byte

/-- The registers the spec leaves unspecified after a fault (R203, U2). -/
structure Leftover where
  pc  : Word
  a   : Byte
  sp  : Byte
  cyc : Nat
  ea  : Option EffAddr
  lr  : Option Byte
  deriving DecidableEq, Repr, Inhabited

/-- What those registers hold after a fault (R203, U2). Free value, log 2. -/
opaque Config.afterFault : Nat → Leftover

end Sys2Proof
end

