-- ==== Sys2Proof/WellFormed.lean ====
section
/-! DEFINITION. Which terms of `Instr` stand for a command word. The types bound every operand; the
one check left is that `outside` holds a code outside the enumeration (30_encoding.md R87, R95). -/

namespace Sys2Proof

/-- MODE values 11 to 15 are outside the enumeration (R87, R95). -/
def outsideEnumeration (code : BitVec 4) : Bool := decide (11 ≤ code.toNat)

def Mode.wellFormed : Mode → Bool
  | .outside code => outsideEnumeration code
  | _ => true

def Instr.wellFormed : Instr → Bool
  | .readOperandOutside code _ _ => outsideEnumeration code
  | .writeOperandOutside code _ _ _ => outsideEnumeration code
  | _ => true

end Sys2Proof
end

