-- ==== Sys2Proof/Decode.lean ====
section
/-! DEFINITION. The command word (30_encoding.md R81 to R88, R93 to R96): the decoder, total on all
2^48 words and refusing by name, and the encoder. The word is presented whole on the command port
(R80, R81): it has no byte order (log 14). -/

namespace Sys2Proof

/-- Why a command word selects no command. -/
inductive Reject where
  /-- `OP` is 0x7 or 0xC to 0xF (R93). -/
  | reservedOp (op : BitVec 4)
  /-- `OP` is assigned and a bit its format marks reserved is 1 (R94). -/
  | reservedBits (op : BitVec 4)
  deriving DecidableEq, Repr

/-! ### Fields (R81) -/

def CmdWord.op (w : CmdWord) : BitVec 4 := w.extractLsb' 44 4
/-- Format B: `ADDR = cmd[43:12]`. -/
def CmdWord.addr (w : CmdWord) : RawAddr := w.extractLsb' 12 32
/-- Formats B and O: `DATA = cmd[7:0]`; format S for `push`: `WDATA[7:0]`. -/
def CmdWord.data (w : CmdWord) : Byte := w.extractLsb' 0 8
/-- Format I: `START = cmd[43:28]`. -/
def CmdWord.start (w : CmdWord) : Word := w.extractLsb' 28 16
/-- Format I: `END = cmd[27:12]`. -/
def CmdWord.stop (w : CmdWord) : Word := w.extractLsb' 12 16
/-- Format I: `HID = cmd[11:0]`. -/
def CmdWord.hid (w : CmdWord) : HandlerId := w.extractLsb' 0 12
/-- Format O: `MODE = cmd[43:40]`. -/
def CmdWord.mode (w : CmdWord) : BitVec 4 := w.extractLsb' 40 4
/-- Format O: `PBP = cmd[39]`. -/
def CmdWord.pbp (w : CmdWord) : Bool := w.getLsbD 39
/-- Format O: `RMW = cmd[38]`. -/
def CmdWord.rmw (w : CmdWord) : Bool := w.getLsbD 38
/-- Format S: `WDATA = cmd[15:0]`. -/
def CmdWord.wdata (w : CmdWord) : Word := w.extractLsb' 0 16

/-- The bits `cmd[hi:lo]` are all 0, with `n = hi - lo + 1`. -/
def CmdWord.zeroBits (w : CmdWord) (lo n : Nat) : Bool := w.extractLsb' lo n == 0#n

/-- The bits that must be 0 for each assigned `OP` (R94); `none` for an `OP` that selects no command
(R93). -/
def CmdWord.reservedOk (w : CmdWord) : Option Bool :=
  match w.op.toNat with
  | 0x0 => some (w.zeroBits 0 12)                    -- read: cmd[11:8] and cmd[7:0]
  | 0x1 => some (w.zeroBits 8 4)                     -- write: cmd[11:8]
  | 0x2 => some true
  | 0x3 => some true
  | 0x4 => some (w.zeroBits 0 38)                    -- readOperand: cmd[37:8] and cmd[7:0]
  | 0x5 => some (w.zeroBits 8 30)                    -- writeOperand: cmd[37:8]
  | 0x6 => some (w.zeroBits 0 44)
  | 0x8 => some (w.zeroBits 8 36)                    -- push: cmd[43:16] and cmd[15:8]
  | 0x9 => some (w.zeroBits 0 44)
  | 0xA => some (w.zeroBits 16 28)                   -- pushWord: cmd[43:16]
  | 0xB => some (w.zeroBits 0 44)
  | _ => none

/-! ### Addressing-mode codes (R87) -/

def Mode.ofCode (code : BitVec 4) : Mode :=
  match code.toNat with
  | 0 => .none
  | 1 => .direct
  | 2 => .immediate
  | 3 => .zeroPage
  | 4 => .absolute
  | 5 => .zeroPageX
  | 6 => .zeroPageY
  | 7 => .absoluteX
  | 8 => .absoluteY
  | 9 => .indirectX
  | 10 => .indirectY
  | _ => .outside code

def Mode.code : Mode → BitVec 4
  | .none => 0#4
  | .direct => 1#4
  | .immediate => 2#4
  | .zeroPage => 3#4
  | .absolute => 4#4
  | .zeroPageX => 5#4
  | .zeroPageY => 6#4
  | .absoluteX => 7#4
  | .absoluteY => 8#4
  | .indirectX => 9#4
  | .indirectY => 10#4
  | .outside code => code

/-- The descriptor as the 6-bit value `{MODE[3:0], PBP, RMW}`, `MODE` in the high bits (R86). -/
def Descriptor.bits (d : Descriptor) : BitVec 6 :=
  d.mode.code ++ BitVec.ofBool d.pbp ++ BitVec.ofBool d.rmw

/-- The `readOperand` command of a descriptor. -/
def Instr.readOperand (d : Descriptor) : Instr :=
  match d.mode with
  | .none => .readOperandNone d.pbp d.rmw
  | .direct => .readOperandDir d.pbp d.rmw
  | .immediate => .readOperandImm d.pbp d.rmw
  | .zeroPage => .readOperandZp d.pbp d.rmw
  | .absolute => .readOperandAbs d.pbp d.rmw
  | .zeroPageX => .readOperandZpx d.pbp d.rmw
  | .zeroPageY => .readOperandZpy d.pbp d.rmw
  | .absoluteX => .readOperandAbsx d.pbp d.rmw
  | .absoluteY => .readOperandAbsy d.pbp d.rmw
  | .indirectX => .readOperandIndx d.pbp d.rmw
  | .indirectY => .readOperandIndy d.pbp d.rmw
  | .outside c => .readOperandOutside c d.pbp d.rmw

/-- The `writeOperand` command of a descriptor and a byte. -/
def Instr.writeOperand (d : Descriptor) (v : Byte) : Instr :=
  match d.mode with
  | .none => .writeOperandNone d.pbp d.rmw v
  | .direct => .writeOperandDir d.pbp d.rmw v
  | .immediate => .writeOperandImm d.pbp d.rmw v
  | .zeroPage => .writeOperandZp d.pbp d.rmw v
  | .absolute => .writeOperandAbs d.pbp d.rmw v
  | .zeroPageX => .writeOperandZpx d.pbp d.rmw v
  | .zeroPageY => .writeOperandZpy d.pbp d.rmw v
  | .absoluteX => .writeOperandAbsx d.pbp d.rmw v
  | .absoluteY => .writeOperandAbsy d.pbp d.rmw v
  | .indirectX => .writeOperandIndx d.pbp d.rmw v
  | .indirectY => .writeOperandIndy d.pbp d.rmw v
  | .outside c => .writeOperandOutside c d.pbp d.rmw v

/-- The descriptor in a format O word (R85). -/
def CmdWord.descriptor (w : CmdWord) : Descriptor := ⟨Mode.ofCode w.mode, w.pbp, w.rmw⟩

/-- The command an assigned `OP` selects (R82), its reserved bits not yet looked at. -/
def CmdWord.select (w : CmdWord) : Instr :=
  match w.op.toNat with
  | 0x0 => .read w.addr
  | 0x1 => .write w.addr w.data
  | 0x2 => .installReadHandler w.start w.stop w.hid
  | 0x3 => .installWriteHandler w.start w.stop w.hid
  | 0x4 => Instr.readOperand w.descriptor
  | 0x5 => Instr.writeOperand w.descriptor w.data
  | 0x6 => .resetForNextInstruction
  | 0x8 => .push w.data
  | 0x9 => .pop
  | 0xA => .pushWord w.wdata
  | _ => .popWord

/-- The decoder: a command, or the reason the word selects none (R93, R94). -/
def decode (w : CmdWord) : Except Reject Instr :=
  match w.reservedOk with
  | some true => .ok w.select
  | some false => .error (.reservedBits w.op)
  | none => .error (.reservedOp w.op)

/-! ### The encoder (R81, R82, R85, R88) -/

/-- Format B: OP, ADDR, 0000, DATA. -/
def encodeB (op : BitVec 4) (addr : RawAddr) (data : Byte) : CmdWord := op ++ addr ++ 0#4 ++ data
/-- Format I: OP, START, END, HID. -/
def encodeI (op : BitVec 4) (start stop : Word) (hid : HandlerId) : CmdWord :=
  op ++ start ++ stop ++ hid
/-- Format O: OP, MODE, PBP, RMW, thirty 0s, DATA. -/
def encodeO (op : BitVec 4) (d : Descriptor) (data : Byte) : CmdWord :=
  op ++ d.bits ++ 0#30 ++ data
/-- Format N: OP, forty-four 0s. -/
def encodeN (op : BitVec 4) : CmdWord := op ++ 0#44
/-- Format S: OP, twenty-eight 0s, WDATA. -/
def encodeS (op : BitVec 4) (wdata : Word) : CmdWord := op ++ 0#28 ++ wdata

/-- The `OP` code of a command (R82). -/
def Instr.opcode : Instr → BitVec 4
  | .read _ => 0x0#4
  | .write _ _ => 0x1#4
  | .installReadHandler _ _ _ => 0x2#4
  | .installWriteHandler _ _ _ => 0x3#4
  | .readOperandNone _ _ | .readOperandDir _ _ | .readOperandImm _ _ | .readOperandZp _ _
  | .readOperandAbs _ _ | .readOperandZpx _ _ | .readOperandZpy _ _ | .readOperandAbsx _ _
  | .readOperandAbsy _ _ | .readOperandIndx _ _ | .readOperandIndy _ _
  | .readOperandOutside _ _ _ => 0x4#4
  | .writeOperandNone _ _ _ | .writeOperandDir _ _ _ | .writeOperandImm _ _ _
  | .writeOperandZp _ _ _ | .writeOperandAbs _ _ _ | .writeOperandZpx _ _ _
  | .writeOperandZpy _ _ _ | .writeOperandAbsx _ _ _ | .writeOperandAbsy _ _ _
  | .writeOperandIndx _ _ _ | .writeOperandIndy _ _ _ | .writeOperandOutside _ _ _ _ => 0x5#4
  | .resetForNextInstruction => 0x6#4
  | .push _ => 0x8#4
  | .pop => 0x9#4
  | .pushWord _ => 0xA#4
  | .popWord => 0xB#4

/-- The command word of a well-formed command. -/
def encode (i : Instr) : CmdWord :=
  match i with
  | .read addr => encodeB i.opcode addr 0#8
  | .write addr data => encodeB i.opcode addr data
  | .installReadHandler start stop hid => encodeI i.opcode start stop hid
  | .installWriteHandler start stop hid => encodeI i.opcode start stop hid
  | .readOperandNone p r => encodeO i.opcode ⟨.none, p, r⟩ 0#8
  | .readOperandDir p r => encodeO i.opcode ⟨.direct, p, r⟩ 0#8
  | .readOperandImm p r => encodeO i.opcode ⟨.immediate, p, r⟩ 0#8
  | .readOperandZp p r => encodeO i.opcode ⟨.zeroPage, p, r⟩ 0#8
  | .readOperandAbs p r => encodeO i.opcode ⟨.absolute, p, r⟩ 0#8
  | .readOperandZpx p r => encodeO i.opcode ⟨.zeroPageX, p, r⟩ 0#8
  | .readOperandZpy p r => encodeO i.opcode ⟨.zeroPageY, p, r⟩ 0#8
  | .readOperandAbsx p r => encodeO i.opcode ⟨.absoluteX, p, r⟩ 0#8
  | .readOperandAbsy p r => encodeO i.opcode ⟨.absoluteY, p, r⟩ 0#8
  | .readOperandIndx p r => encodeO i.opcode ⟨.indirectX, p, r⟩ 0#8
  | .readOperandIndy p r => encodeO i.opcode ⟨.indirectY, p, r⟩ 0#8
  | .readOperandOutside c p r => encodeO i.opcode ⟨.outside c, p, r⟩ 0#8
  | .writeOperandNone p r v => encodeO i.opcode ⟨.none, p, r⟩ v
  | .writeOperandDir p r v => encodeO i.opcode ⟨.direct, p, r⟩ v
  | .writeOperandImm p r v => encodeO i.opcode ⟨.immediate, p, r⟩ v
  | .writeOperandZp p r v => encodeO i.opcode ⟨.zeroPage, p, r⟩ v
  | .writeOperandAbs p r v => encodeO i.opcode ⟨.absolute, p, r⟩ v
  | .writeOperandZpx p r v => encodeO i.opcode ⟨.zeroPageX, p, r⟩ v
  | .writeOperandZpy p r v => encodeO i.opcode ⟨.zeroPageY, p, r⟩ v
  | .writeOperandAbsx p r v => encodeO i.opcode ⟨.absoluteX, p, r⟩ v
  | .writeOperandAbsy p r v => encodeO i.opcode ⟨.absoluteY, p, r⟩ v
  | .writeOperandIndx p r v => encodeO i.opcode ⟨.indirectX, p, r⟩ v
  | .writeOperandIndy p r v => encodeO i.opcode ⟨.indirectY, p, r⟩ v
  | .writeOperandOutside c p r v => encodeO i.opcode ⟨.outside c, p, r⟩ v
  | .resetForNextInstruction => encodeN i.opcode
  | .push v => encodeS i.opcode (v.setWidth 16)
  | .pop => encodeN i.opcode
  | .pushWord w => encodeS i.opcode w
  | .popWord => encodeN i.opcode

/-! ### spec/opcode_table.json -/

/-- One row of the table: a word `w` matches when `w & mask = match` (30_encoding.md section 7). -/
structure Row where
  mnemonic : String
  fixed    : CmdWord   -- the row's "match"
  mask     : CmdWord
  deriving DecidableEq, Repr

def Row.admits (r : Row) (w : CmdWord) : Bool := w &&& r.mask == r.fixed

/-- The rows whose mnemonic is no operand command's. -/
def opcodeRowsPlain : List Row :=
  [ ⟨"read", 0x000000000000, 0xF00000000FFF⟩
  , ⟨"write", 0x100000000000, 0xF00000000F00⟩
  , ⟨"installReadHandler", 0x200000000000, 0xF00000000000⟩
  , ⟨"installWriteHandler", 0x300000000000, 0xF00000000000⟩
  , ⟨"resetForNextInstruction", 0x600000000000, 0xFFFFFFFFFFFF⟩
  , ⟨"push", 0x800000000000, 0xFFFFFFFFFF00⟩
  , ⟨"pop", 0x900000000000, 0xFFFFFFFFFFFF⟩
  , ⟨"pushWord", 0xA00000000000, 0xFFFFFFFF0000⟩
  , ⟨"popWord", 0xB00000000000, 0xFFFFFFFFFFFF⟩ ]

def opcodeRowsReadOperand : List Row :=
  [ ⟨"readOperand.none", 0x400000000000, 0xFF3FFFFFFFFF⟩
  , ⟨"readOperand.dir", 0x410000000000, 0xFF3FFFFFFFFF⟩
  , ⟨"readOperand.imm", 0x420000000000, 0xFF3FFFFFFFFF⟩
  , ⟨"readOperand.zp", 0x430000000000, 0xFF3FFFFFFFFF⟩
  , ⟨"readOperand.abs", 0x440000000000, 0xFF3FFFFFFFFF⟩
  , ⟨"readOperand.zpx", 0x450000000000, 0xFF3FFFFFFFFF⟩
  , ⟨"readOperand.zpy", 0x460000000000, 0xFF3FFFFFFFFF⟩
  , ⟨"readOperand.absx", 0x470000000000, 0xFF3FFFFFFFFF⟩
  , ⟨"readOperand.absy", 0x480000000000, 0xFF3FFFFFFFFF⟩
  , ⟨"readOperand.indx", 0x490000000000, 0xFF3FFFFFFFFF⟩
  , ⟨"readOperand.indy", 0x4A0000000000, 0xFF3FFFFFFFFF⟩ ]

def opcodeRowsWriteOperand : List Row :=
  [ ⟨"writeOperand.none", 0x500000000000, 0xFF3FFFFFFF00⟩
  , ⟨"writeOperand.dir", 0x510000000000, 0xFF3FFFFFFF00⟩
  , ⟨"writeOperand.imm", 0x520000000000, 0xFF3FFFFFFF00⟩
  , ⟨"writeOperand.zp", 0x530000000000, 0xFF3FFFFFFF00⟩
  , ⟨"writeOperand.abs", 0x540000000000, 0xFF3FFFFFFF00⟩
  , ⟨"writeOperand.zpx", 0x550000000000, 0xFF3FFFFFFF00⟩
  , ⟨"writeOperand.zpy", 0x560000000000, 0xFF3FFFFFFF00⟩
  , ⟨"writeOperand.absx", 0x570000000000, 0xFF3FFFFFFF00⟩
  , ⟨"writeOperand.absy", 0x580000000000, 0xFF3FFFFFFF00⟩
  , ⟨"writeOperand.indx", 0x590000000000, 0xFF3FFFFFFF00⟩
  , ⟨"writeOperand.indy", 0x5A0000000000, 0xFF3FFFFFFF00⟩ ]

def opcodeRows : List Row :=
  opcodeRowsPlain ++ opcodeRowsReadOperand ++ opcodeRowsWriteOperand

/-- The table's name of a command; the two `outside` forms have no row (R95). -/
def Instr.mnemonic : Instr → Option String
  | .read _ => some "read"
  | .write _ _ => some "write"
  | .installReadHandler _ _ _ => some "installReadHandler"
  | .installWriteHandler _ _ _ => some "installWriteHandler"
  | .readOperandNone _ _ => some "readOperand.none"
  | .readOperandDir _ _ => some "readOperand.dir"
  | .readOperandImm _ _ => some "readOperand.imm"
  | .readOperandZp _ _ => some "readOperand.zp"
  | .readOperandAbs _ _ => some "readOperand.abs"
  | .readOperandZpx _ _ => some "readOperand.zpx"
  | .readOperandZpy _ _ => some "readOperand.zpy"
  | .readOperandAbsx _ _ => some "readOperand.absx"
  | .readOperandAbsy _ _ => some "readOperand.absy"
  | .readOperandIndx _ _ => some "readOperand.indx"
  | .readOperandIndy _ _ => some "readOperand.indy"
  | .readOperandOutside _ _ _ => none
  | .writeOperandNone _ _ _ => some "writeOperand.none"
  | .writeOperandDir _ _ _ => some "writeOperand.dir"
  | .writeOperandImm _ _ _ => some "writeOperand.imm"
  | .writeOperandZp _ _ _ => some "writeOperand.zp"
  | .writeOperandAbs _ _ _ => some "writeOperand.abs"
  | .writeOperandZpx _ _ _ => some "writeOperand.zpx"
  | .writeOperandZpy _ _ _ => some "writeOperand.zpy"
  | .writeOperandAbsx _ _ _ => some "writeOperand.absx"
  | .writeOperandAbsy _ _ _ => some "writeOperand.absy"
  | .writeOperandIndx _ _ _ => some "writeOperand.indx"
  | .writeOperandIndy _ _ _ => some "writeOperand.indy"
  | .writeOperandOutside _ _ _ _ => none
  | .resetForNextInstruction => some "resetForNextInstruction"
  | .push _ => some "push"
  | .pop => some "pop"
  | .pushWord _ => some "pushWord"
  | .popWord => some "popWord"

/-! ### The host's numbering -/

/-- The command word whose bits are those of `w` below `nbits`, the rest 0. -/
def tableWord (nbits w : Nat) : CmdWord := BitVec.ofNat 48 (w % 2 ^ nbits)

/-- What the decoder reads from an instruction of the opcode table, numbered as the table numbers its
bits (the command word is the one word). -/
def decodeTableWord (nbits w : Nat) : Option Instr :=
  match decode (tableWord nbits w) with
  | .ok i => some i
  | .error _ => none

end Sys2Proof
end

