-- ==== Sys2Proof/Machine/Table.lean ====
section
/-! DEFINITION. A handler table (10_state.md R28, R29): 65536 slots, each at its default binding or
bound to a handler. It is plain data in ONE canonical form: the bound slots as runs of neighbouring
slots bound to one handler, in rising order and as long as they can be; a slot in no run is at its
default (log 7). What a slot holds is `Table.lookup`; nothing else reads a table. -/

namespace Sys2Proof.Machine

/-- The slots `first` to `last`, both included, all bound to `hid`. -/
structure Run where
  first : Nat
  last  : Nat
  hid   : HandlerId
  deriving DecidableEq, Repr

/-- A handler table: its bound slots, as runs. -/
abbrev Table := List Run

/-- Every slot at its default binding (R29, R37). -/
def Table.default : Table := []

def Run.covers (r : Run) (a : Nat) : Bool := decide (r.first ≤ a) && decide (a ≤ r.last)

/-- Slot `a`: `none` is `valid = 0`, the default binding; `some h` is `valid = 1, hid = h` (R29). -/
def Table.lookup (t : Table) (a : Word) : Option HandlerId :=
  (t.find? fun r => r.covers a.toNat).map Run.hid

/-! ### Binding a range (40_dispatcher.md R112, R113) -/

/-- What is left of a run below slot `lo`. -/
def Run.below (lo : Nat) (r : Run) : Option Run :=
  if r.first < lo then some { r with last := min r.last (lo - 1) } else none

/-- What is left of a run above slot `hi`. -/
def Run.above (hi : Nat) (r : Run) : Option Run :=
  if hi < r.last then some { r with first := max r.first (hi + 1) } else none

/-- A run put before a table; two runs that touch and are bound alike become one. -/
def Table.glue (r : Run) (t : Table) : Table :=
  match t with
  | [] => [r]
  | q :: rest =>
    if r.last + 1 = q.first ∧ r.hid = q.hid then
      ⟨min r.first q.first, max r.last q.last, r.hid⟩ :: rest
    else r :: q :: rest

/-- The slots `lo` to `hi` bound to `h`, every other slot as it was. -/
def Table.bind (lo hi : Nat) (h : HandlerId) (t : Table) : Table :=
  (t.filterMap (Run.below lo) ++ ⟨lo, hi, h⟩ :: t.filterMap (Run.above hi)).foldr Table.glue []

/-- "for a from start to end, both included": nothing where `start > end` (R112, D8; log 16). -/
def Table.install (start stop : Word) (h : HandlerId) (t : Table) : Table :=
  if start.toNat ≤ stop.toNat then t.bind start.toNat stop.toNat h else t

/-! ### The canonical form -/

/-- A run that covers at least one slot and none outside the address space. -/
def Run.ok (r : Run) : Bool := decide (r.first ≤ r.last) && decide (r.last < 65536)

/-- `q` stands above `r` and the two could not be one run. -/
def Run.apart (r q : Run) : Bool :=
  decide (r.last + 1 < q.first) || (decide (r.last + 1 = q.first) && decide (r.hid ≠ q.hid))

/-- The canonical form: sound runs, in rising order, none mergeable with the next. -/
def Table.wf (t : Table) : Bool :=
  match t with
  | [] => true
  | [r] => r.ok
  | r :: q :: rest => r.ok && r.apart q && Table.wf (q :: rest)

end Sys2Proof.Machine
end

