-- ==== Sys2Proof/Machine/State.lean ====
section
/-! DEFINITION. The state of the block (10_state.md), what its ports show and take, the ways a step
stops, and the state right after reset. -/

namespace Sys2Proof.Machine

/-- One transaction on the bus port (20_memory.md R56): which handler, at which masked address, and
the byte it answered or was given. -/
inductive BusEvent where
  | read (hid : HandlerId) (addr : Word) (answer : Byte)
  | write (hid : HandlerId) (addr : Word) (data : Byte)
  deriving DecidableEq, Repr

/-- One act of the environment: a command word on the command port (30_encoding.md R80, R81), a write
of an externally owned register or an addition to the cycle counter (10_state.md R27, R99), or a
reset (70_reset_and_hazards.md R230). -/
inductive Input where
  | command (word : CmdWord)
  | setPc (v : Word)
  | setA (v : Byte)
  | setX (v : Byte)
  | setY (v : Byte)
  | setSp (v : Byte)
  | addCyc (n : Nat)
  | reset
  deriving DecidableEq, Repr

/-- The fault latch while `FAULT = 1`: `FAULT_CODE` and `FAULT_INFO` (10_state.md R34). -/
structure FaultRecord where
  code : BitVec 2
  info : Word
  deriving DecidableEq, Repr

@[ext]
structure State where
  /-- `PC` (R20). -/
  pc : Word
  /-- `A` (R21). -/
  a : Byte
  /-- `X` (R22). -/
  x : Byte
  /-- `Y` (R23). -/
  y : Byte
  /-- `SP` (R24). -/
  sp : Byte
  /-- `CYC` (R25): a natural number, it never wraps (log 15). -/
  cyc : Nat
  /-- `RT`, the read-handler table (R28). -/
  rt : Table
  /-- `WT`, the write-handler table (R28). -/
  wt : Table
  /-- `EA_VALID` and `EA` (R31): a value exactly while `EA_VALID = 1` (log 6). -/
  ea : Option EffAddr
  /-- `LR_VALID` and `LR` (R32): a value exactly while `LR_VALID = 1` (log 6). -/
  lr : Option Byte
  /-- `FAULT`, `FAULT_CODE`, `FAULT_INFO` (R34): a record exactly while `FAULT = 1` (log 6). -/
  fault : Option FaultRecord
  /-- `rsp_data` of the last completed command (R92): no value where the spec says to ignore it
  (log 9). -/
  rsp : Option Word
  /-- The bus events since launch, oldest first (R10, R56; log 8). -/
  bus : List BusEvent
  /-- The environment's acts to come, next first (R27, R230; log 10). -/
  inputs : List Input
  /-- What the handlers will answer, next first (R11, R57; log 3). -/
  answers : List Byte
  /-- The model's own: the index of the next free value (R9, R11; log 21). -/
  draws : Nat
  deriving DecidableEq, Repr

/-- The block's two fatal faults (60_exceptions.md section 1). Both are raised by the commands that
read or resolve, and end the run (R202). SAFE: the run stops, as the spec says it does. `after` is
the faulted state (R202, R203): the latch written, the bus events so far, the tables unchanged, the
other registers free values (log 1, log 2). -/
inductive Fault where
  /-- A dispatcher read found the default binding at `addr` (R200). Raised by `read`, `pop`,
  `popWord`, `readOperand` and `writeOperand`. Safe. -/
  | unmappedRead (addr : Word) (after : State)
  /-- `resolve` was entered with MODE 0 or 11 to 15 (R201). Raised by `readOperand` and
  `writeOperand` in the forms None and outside. Safe. -/
  | unimplementedMode (mode : BitVec 4) (after : State)
  deriving DecidableEq, Repr

/-- Why a command word has no effect at all (30_encoding.md R96): no state changes. -/
inductive Refusal where
  /-- Raised by an arm of `exec` that has no meaning yet; there is none. Safe. -/
  | notModelled (mnemonic : String)
  /-- The word selects no command (R93, R94). Raised by the command port. Safe: the spec's own
  refusal (R96; log 12). -/
  | malformed (why : Reject)
  /-- A command word presented while `FAULT = 1` (R96, R203). Raised by the command port. Safe: the
  spec's own refusal (log 12). -/
  | blockFaulted
  deriving DecidableEq, Repr

/-- The machine right after reset (R37, R230): both tables at their defaults, nothing memoized, no
fault latched; the externally owned registers at the launch parameters (R7; log 5). -/
def State.reset : State where
  pc := Config.resetPc
  a := Config.resetA
  x := Config.resetX
  y := Config.resetY
  sp := Config.resetSp
  cyc := Config.resetCyc
  rt := Table.default
  wt := Table.default
  ea := none
  lr := none
  fault := none
  rsp := none
  bus := []
  inputs := []
  answers := []
  draws := 0

end Sys2Proof.Machine
end

