-- ==== Sys2Proof/Machine/Ops.lean ====
section
/-! DEFINITION. The named operations: free values, bus transactions, the dispatcher's read and write
(40_dispatcher.md R110, R111), raising a fault (60_exceptions.md R202), the way out of one (reset,
70_reset_and_hazards.md R230), and the response (30_encoding.md R92). -/

namespace Sys2Proof.Machine

/-! ### Sequencing -/

/-- What a part of a command gives: a value and the state after it, or the fault that ends the
command at once (R202). -/
inductive Result (α : Type) where
  | done (v : α) (s : State)
  | raised (f : Fault)

/-- `r`, then `k` on its value and state; a fault ends the sequence (R10, R202). -/
def Result.andThen {α β : Type} (r : Result α) (k : α → State → Result β) : Result β :=
  match r with
  | .done v s => k v s
  | .raised f => .raised f

/-! ### The handlers' answers and free values -/

/-- The `k`-th answer from now that the handlers give: the listed one, or a free value where the list
has run out (R57; log 3). -/
def answerAt (s : State) (k : Nat) : Byte :=
  match s.answers[k]? with
  | some b => b
  | none => Config.busAnswer (s.draws + (k - s.answers.length))

/-- `k` answers given. -/
def skipAnswers (s : State) (k : Nat) : State :=
  { s with answers := s.answers.drop k, draws := s.draws + (k - s.answers.length) }

/-- `any_byte()`: a byte under no law (R9; log 4). -/
def anyByte (s : State) : Byte := Config.anyByte s.draws

/-- One free value drawn. -/
def skipDraw (s : State) : State := { s with draws := s.draws + 1 }

/-! ### Bus transactions (20_memory.md R56) -/

/-- `BusRead(h, a)` and the byte it yields. -/
def busRead (h : HandlerId) (a : Word) (s : State) : Byte × State :=
  (answerAt s 0, { skipAnswers s 1 with bus := s.bus ++ [.read h a (answerAt s 0)] })

/-- `BusWrite(h, a, v)`. -/
def busWrite (h : HandlerId) (a : Word) (v : Byte) (s : State) : State :=
  { s with bus := s.bus ++ [.write h a v] }

/-! ### Taking a fault, and reset -/

/-- Fault entry (R202, R203): the latch written, the tables, `X`, `Y`, the events so far and what is
outside the block as they were, the response data of no use (R92), the registers R203 lists free
values (log 2). -/
def faulted (code : BitVec 2) (info : Word) (s : State) : State :=
  let u := Config.afterFault s.draws
  { s with
    fault := some ⟨code, info⟩
    pc := u.pc, a := u.a, sp := u.sp, cyc := u.cyc, ea := u.ea, lr := u.lr
    rsp := none
    draws := s.draws + 1 }

/-- `raise UnmappedRead(a)`: code 1, info the masked address (R200). -/
def raiseUnmappedRead (a : Word) (s : State) : Fault := .unmappedRead a (faulted 1#2 a s)

/-- `raise UnimplementedMode(m)`: code 2, info the mode zero-extended (R201). -/
def raiseUnimplementedMode (m : BitVec 4) (s : State) : Fault :=
  .unimplementedMode m (faulted 2#2 (m.setWidth 16) s)

/-- Reset (R230): every slot of both tables default, `EA_VALID`, `LR_VALID` and `FAULT` 0; the
externally owned registers are not written and no bus event is emitted. It is the only way out of a
fault (R204). -/
def resetBlock (s : State) : State :=
  { s with
    rt := Table.default, wt := Table.default, ea := none, lr := none, fault := none, rsp := none }

/-! ### The dispatcher (40_dispatcher.md) -/

/-- `addr & 0xFFFF` (R52). -/
def maskAddr (addr : RawAddr) : Word := addr.setWidth 16

/-- `MemRead(addr, 1)` (R110). -/
def memRead (addr : RawAddr) (s : State) : Result Byte :=
  match s.rt.lookup (maskAddr addr) with
  | none => .raised (raiseUnmappedRead (maskAddr addr) s)
  | some h => .done (busRead h (maskAddr addr) s).1 (busRead h (maskAddr addr) s).2

/-- `MemWrite(addr, 1, v)` (R111): nothing at all at a slot with the default binding. -/
def memWrite (addr : RawAddr) (v : Byte) (s : State) : State :=
  match s.wt.lookup (maskAddr addr) with
  | none => s
  | some h => busWrite h (maskAddr addr) v s

/-! ### Completing a command (R92) -/

/-- A command that returns nothing. -/
def complete (s : State) : Host.Outcome State Fault Refusal := .next { s with rsp := none }

/-- A command that returns a byte: `rsp_data[7:0]`, the high half 0. -/
def completeByte (r : Result Byte) : Host.Outcome State Fault Refusal :=
  match r with
  | .done v s => .next { s with rsp := some (v.setWidth 16) }
  | .raised f => .fault f

/-- A command that returns a word. -/
def completeWord (r : Result Word) : Host.Outcome State Fault Refusal :=
  match r with
  | .done v s => .next { s with rsp := some v }
  | .raised f => .fault f

/-- A command that returns nothing and may fault. -/
def completeUnit (r : Result Unit) : Host.Outcome State Fault Refusal :=
  match r with
  | .done _ s => complete s
  | .raised f => .fault f

/-- What the response port carries (R92). -/
inductive Response where
  /-- `fault = 0` and `rsp_data`, which is of no use where there is no value. -/
  | completed (data : Option Word)
  /-- `fault = 1`, `fault_code`, `fault_info`; `rsp_data` is of no use. -/
  | faulted (code : BitVec 2) (info : Word)
  deriving DecidableEq, Repr

/-- The response port of a state (R36, R92). -/
def responsePort (s : State) : Response :=
  match s.fault with
  | none => .completed s.rsp
  | some r => .faulted r.code r.info

end Sys2Proof.Machine
end

