-- ==== Sys2Proof/Machine/Operands.lean ====
section
/-! DEFINITION. The EffectiveAddressResolver (41_resolver.md): its adders, the operand fetches, one
rule per addressing mode, `resolve`; and the memoized address of the OperandAccessor (R31, R163). -/

namespace Sys2Proof.Machine

/-! ### The adders (R131) -/

/-- `CAT(hi, lo)`: `lo | (hi << 8)`. -/
def cat (hi lo : Byte) : Word := hi ++ lo
/-- `ADD8(b, i)`: the carry out of bit 7 is dropped. -/
def add8 (b i : Byte) : Byte := b + i
/-- `INC8(b)`. -/
def inc8 (b : Byte) : Byte := b + 1#8
/-- `ADD17(w, i)`: not masked. -/
def add17 (w : Word) (i : Byte) : EffAddr := w.setWidth 17 + i.setWidth 17
/-- `ADD16(w, i)`: the carry out of bit 15 is dropped. -/
def add16 (w : Word) (i : Byte) : Word := w + i.setWidth 16
/-- `ZEXT(b)`. -/
def zext (b : Byte) : EffAddr := b.setWidth 17

/-! ### Helpers -/

/-- `PC <- (PC + 1) & 0xFFFF` (R20). -/
def advancePc (s : State) : State := { s with pc := s.pc + 1#16 }

/-- `NextByte()`: the read at the old `PC`, then the increment (R132). -/
def nextByte (s : State) : Result Byte :=
  (memRead (s.pc.setWidth 32) s).andThen fun b s => .done b (advancePc s)

/-- `NextWord()`: low byte first (R134). -/
def nextWord (s : State) : Result Word :=
  (nextByte s).andThen fun b0 s => (nextByte s).andThen fun b1 s => .done (cat b1 b0) s

/-- `Penalty(w, i, pbp)`: one cycle when the descriptor asks for it and the addition crosses a page
(R133). -/
def penalty (w : Word) (i : Byte) (pbp : Bool) (s : State) : State :=
  if pbp && cross w i then { s with cyc := s.cyc + 1 } else s

/-- A pointer in the zero page: low byte at `p`, high byte at `INC8(p)`, in that order (R142, R143). -/
def readPointer (p : Byte) (s : State) : Result Word :=
  (memRead (p.setWidth 32) s).andThen fun lo s =>
    (memRead ((inc8 p).setWidth 32) s).andThen fun hi s => .done (cat hi lo) s

/-! ### One rule per mode -/

/-- R135: the address is the stream position itself; no bus event. -/
def resolveImmediate (s : State) : Result EffAddr := .done (s.pc.setWidth 17) (advancePc s)

/-- R136. -/
def resolveZeroPage (s : State) : Result EffAddr :=
  (nextByte s).andThen fun b s => .done (zext b) s

/-- R137. -/
def resolveAbsolute (s : State) : Result EffAddr :=
  (nextWord s).andThen fun w s => .done (w.setWidth 17) s

/-- R138. -/
def resolveZeroPageX (s : State) : Result EffAddr :=
  (nextByte s).andThen fun b s => .done (zext (add8 b s.x)) s

/-- R139. -/
def resolveZeroPageY (s : State) : Result EffAddr :=
  (nextByte s).andThen fun b s => .done (zext (add8 b s.y)) s

/-- R140: the penalty before the address, which is not masked. -/
def resolveAbsoluteX (pbp : Bool) (s : State) : Result EffAddr :=
  (nextWord s).andThen fun w s => .done (add17 w s.x) (penalty w s.x pbp s)

/-- R141. -/
def resolveAbsoluteY (pbp : Bool) (s : State) : Result EffAddr :=
  (nextWord s).andThen fun w s => .done (add17 w s.y) (penalty w s.y pbp s)

/-- R142: no penalty, whatever the descriptor. -/
def resolveIndirectX (s : State) : Result EffAddr :=
  (nextByte s).andThen fun b s =>
    (readPointer (add8 b s.x) s).andThen fun w s => .done (w.setWidth 17) s

/-- R143: the penalty is evaluated against the un-indexed base, the result is masked to 16 bits. -/
def resolveIndirectY (pbp : Bool) (s : State) : Result EffAddr :=
  (nextByte s).andThen fun p s =>
    (readPointer p s).andThen fun w s =>
      .done ((add16 w s.y).setWidth 17) (penalty w s.y pbp s)

/-- `resolve(def)` (R130): the mode's rule; modes None, Direct and 11 to 15 fault before anything
else happens (R144, R145). -/
def resolve (d : Descriptor) (s : State) : Result EffAddr :=
  match d.mode with
  | .none => .raised (raiseUnimplementedMode 0#4 s)
  | .direct => .raised (raiseUnimplementedMode 1#4 s)
  | .immediate => resolveImmediate s
  | .zeroPage => resolveZeroPage s
  | .absolute => resolveAbsolute s
  | .zeroPageX => resolveZeroPageX s
  | .zeroPageY => resolveZeroPageY s
  | .absoluteX => resolveAbsoluteX d.pbp s
  | .absoluteY => resolveAbsoluteY d.pbp s
  | .indirectX => resolveIndirectX s
  | .indirectY => resolveIndirectY d.pbp s
  | .outside code => .raised (raiseUnimplementedMode code s)

/-- The memoized address; the first access of an instruction resolves it and memoizes it (R160, R161,
R163). -/
def effectiveAddress (d : Descriptor) (s : State) : Result EffAddr :=
  match s.ea with
  | some ea => .done ea s
  | none => (resolve d s).andThen fun ea s => .done ea { s with ea := some ea }

end Sys2Proof.Machine
end

