-- ==== Sys2Proof/Machine/Accessor.lean ====
section
/-! DEFINITION. The OperandAccessor's commands (42_operand_accessor.md R160 to R164), one meaning per
addressing mode over the two shared operations. -/

namespace Sys2Proof.Machine

/-- `readOperand` (R160): `A` in Direct mode; else the byte at the effective address, which becomes
the last-read value. -/
def readOperand (d : Descriptor) (s : State) : Result Byte :=
  if d.mode = .direct then .done s.a s
  else
    (effectiveAddress d s).andThen fun ea s =>
      (memRead (ea.setWidth 32) s).andThen fun v s => .done v { s with lr := some v }

/-- The dummy write of a read-modify-write store (R161): the last-read value, or `any_byte()` when
there is none. -/
def dummyWrite (ea : EffAddr) (s : State) : State :=
  match s.lr with
  | some v => memWrite (ea.setWidth 32) v s
  | none => memWrite (ea.setWidth 32) (anyByte s) (skipDraw s)

/-- The bus side of `writeOperand` (R161): the dummy write when the descriptor says `rmw`, then the
final write. -/
def storeOperand (rmw : Bool) (v : Byte) (ea : EffAddr) (s : State) : State :=
  memWrite (ea.setWidth 32) v (if rmw then dummyWrite ea s else s)

/-- `writeOperand` (R161): `A` in Direct mode; else the store at the effective address. -/
def writeOperand (d : Descriptor) (v : Byte) (s : State) : Result Unit :=
  if d.mode = .direct then .done () { s with a := v }
  else
    (effectiveAddress d s).andThen fun ea s => .done () (storeOperand d.rmw v ea s)

/-! ### readOperand, one mode each -/

/-- `readOperand`, mode None, R144: faults unless an address is memoized. -/
def execReadOperandNone (pbp rmw : Bool) (s : State) : Host.Outcome State Fault Refusal :=
  completeByte (readOperand ⟨.none, pbp, rmw⟩ s)

/-- `readOperand`, mode Direct, R164: `A` only. -/
def execReadOperandDir (pbp rmw : Bool) (s : State) : Host.Outcome State Fault Refusal :=
  completeByte (readOperand ⟨.direct, pbp, rmw⟩ s)

/-- `readOperand`, mode Immediate, R135. -/
def execReadOperandImm (pbp rmw : Bool) (s : State) : Host.Outcome State Fault Refusal :=
  completeByte (readOperand ⟨.immediate, pbp, rmw⟩ s)

/-- `readOperand`, mode ZeroPage, R136. -/
def execReadOperandZp (pbp rmw : Bool) (s : State) : Host.Outcome State Fault Refusal :=
  completeByte (readOperand ⟨.zeroPage, pbp, rmw⟩ s)

/-- `readOperand`, mode Absolute, R137. -/
def execReadOperandAbs (pbp rmw : Bool) (s : State) : Host.Outcome State Fault Refusal :=
  completeByte (readOperand ⟨.absolute, pbp, rmw⟩ s)

/-- `readOperand`, mode ZeroPageX, R138. -/
def execReadOperandZpx (pbp rmw : Bool) (s : State) : Host.Outcome State Fault Refusal :=
  completeByte (readOperand ⟨.zeroPageX, pbp, rmw⟩ s)

/-- `readOperand`, mode ZeroPageY, R139. -/
def execReadOperandZpy (pbp rmw : Bool) (s : State) : Host.Outcome State Fault Refusal :=
  completeByte (readOperand ⟨.zeroPageY, pbp, rmw⟩ s)

/-- `readOperand`, mode AbsoluteX, R140. -/
def execReadOperandAbsx (pbp rmw : Bool) (s : State) : Host.Outcome State Fault Refusal :=
  completeByte (readOperand ⟨.absoluteX, pbp, rmw⟩ s)

/-- `readOperand`, mode AbsoluteY, R141. -/
def execReadOperandAbsy (pbp rmw : Bool) (s : State) : Host.Outcome State Fault Refusal :=
  completeByte (readOperand ⟨.absoluteY, pbp, rmw⟩ s)

/-- `readOperand`, mode IndirectX, R142. -/
def execReadOperandIndx (pbp rmw : Bool) (s : State) : Host.Outcome State Fault Refusal :=
  completeByte (readOperand ⟨.indirectX, pbp, rmw⟩ s)

/-- `readOperand`, mode IndirectY, R143. -/
def execReadOperandIndy (pbp rmw : Bool) (s : State) : Host.Outcome State Fault Refusal :=
  completeByte (readOperand ⟨.indirectY, pbp, rmw⟩ s)

/-- `readOperand` with `MODE` 11 to 15, R145: faults unless an address is memoized. -/
def execReadOperandOutside (code : BitVec 4) (pbp rmw : Bool) (s : State) :
    Host.Outcome State Fault Refusal :=
  completeByte (readOperand ⟨.outside code, pbp, rmw⟩ s)

/-! ### writeOperand, one mode each -/

/-- `writeOperand`, mode None, R144: faults unless an address is memoized. -/
def execWriteOperandNone (pbp rmw : Bool) (data : Byte) (s : State) :
    Host.Outcome State Fault Refusal :=
  completeUnit (writeOperand ⟨.none, pbp, rmw⟩ data s)

/-- `writeOperand`, mode Direct, R164: `A` only. -/
def execWriteOperandDir (pbp rmw : Bool) (data : Byte) (s : State) :
    Host.Outcome State Fault Refusal :=
  completeUnit (writeOperand ⟨.direct, pbp, rmw⟩ data s)

/-- `writeOperand`, mode Immediate, R135. -/
def execWriteOperandImm (pbp rmw : Bool) (data : Byte) (s : State) :
    Host.Outcome State Fault Refusal :=
  completeUnit (writeOperand ⟨.immediate, pbp, rmw⟩ data s)

/-- `writeOperand`, mode ZeroPage, R136. -/
def execWriteOperandZp (pbp rmw : Bool) (data : Byte) (s : State) :
    Host.Outcome State Fault Refusal :=
  completeUnit (writeOperand ⟨.zeroPage, pbp, rmw⟩ data s)

/-- `writeOperand`, mode Absolute, R137. -/
def execWriteOperandAbs (pbp rmw : Bool) (data : Byte) (s : State) :
    Host.Outcome State Fault Refusal :=
  completeUnit (writeOperand ⟨.absolute, pbp, rmw⟩ data s)

/-- `writeOperand`, mode ZeroPageX, R138. -/
def execWriteOperandZpx (pbp rmw : Bool) (data : Byte) (s : State) :
    Host.Outcome State Fault Refusal :=
  completeUnit (writeOperand ⟨.zeroPageX, pbp, rmw⟩ data s)

/-- `writeOperand`, mode ZeroPageY, R139. -/
def execWriteOperandZpy (pbp rmw : Bool) (data : Byte) (s : State) :
    Host.Outcome State Fault Refusal :=
  completeUnit (writeOperand ⟨.zeroPageY, pbp, rmw⟩ data s)

/-- `writeOperand`, mode AbsoluteX, R140. -/
def execWriteOperandAbsx (pbp rmw : Bool) (data : Byte) (s : State) :
    Host.Outcome State Fault Refusal :=
  completeUnit (writeOperand ⟨.absoluteX, pbp, rmw⟩ data s)

/-- `writeOperand`, mode AbsoluteY, R141. -/
def execWriteOperandAbsy (pbp rmw : Bool) (data : Byte) (s : State) :
    Host.Outcome State Fault Refusal :=
  completeUnit (writeOperand ⟨.absoluteY, pbp, rmw⟩ data s)

/-- `writeOperand`, mode IndirectX, R142. -/
def execWriteOperandIndx (pbp rmw : Bool) (data : Byte) (s : State) :
    Host.Outcome State Fault Refusal :=
  completeUnit (writeOperand ⟨.indirectX, pbp, rmw⟩ data s)

/-- `writeOperand`, mode IndirectY, R143. -/
def execWriteOperandIndy (pbp rmw : Bool) (data : Byte) (s : State) :
    Host.Outcome State Fault Refusal :=
  completeUnit (writeOperand ⟨.indirectY, pbp, rmw⟩ data s)

/-- `writeOperand` with `MODE` 11 to 15, R145: faults unless an address is memoized. -/
def execWriteOperandOutside (code : BitVec 4) (pbp rmw : Bool) (data : Byte) (s : State) :
    Host.Outcome State Fault Refusal :=
  completeUnit (writeOperand ⟨.outside code, pbp, rmw⟩ data s)

/-! ### The instruction boundary -/

/-- `resetForNextInstruction` (R162): the memo and the last-read value are no more. -/
def execResetForNextInstruction (s : State) : Host.Outcome State Fault Refusal :=
  complete { s with ea := none, lr := none }

end Sys2Proof.Machine
end

