-- ==== Sys2Proof/Machine/Dispatcher.lean ====
section
/-! DEFINITION. The AddressSpaceDispatcher's commands (40_dispatcher.md R110 to R113). -/

namespace Sys2Proof.Machine

/-- `read` (R110). -/
def execRead (addr : RawAddr) (s : State) : Host.Outcome State Fault Refusal :=
  completeByte (memRead addr s)

/-- `write` (R111). -/
def execWrite (addr : RawAddr) (data : Byte) (s : State) : Host.Outcome State Fault Refusal :=
  complete (memWrite addr data s)

/-- `installReadHandler` (R112): slots of `RT` only. -/
def execInstallReadHandler (start stop : Word) (hid : HandlerId) (s : State) :
    Host.Outcome State Fault Refusal :=
  complete { s with rt := s.rt.install start stop hid }

/-- `installWriteHandler` (R113): slots of `WT` only. -/
def execInstallWriteHandler (start stop : Word) (hid : HandlerId) (s : State) :
    Host.Outcome State Fault Refusal :=
  complete { s with wt := s.wt.install start stop hid }

end Sys2Proof.Machine
end

