-- ==== Sys2Proof/Machine/Stack.lean ====
section
/-! DEFINITION. The StackUnit's commands (43_stack_unit.md R180 to R184). -/

namespace Sys2Proof.Machine

/-- `StackAddr(SP)`: `0x0100 + SP` (R180). -/
def stackAddr (sp : Byte) : RawAddr := 0x0100#32 + sp.setWidth 32

/-- One byte stored at the old `SP`, then the decrement (R181). -/
def pushByte (v : Byte) (s : State) : State :=
  let s := memWrite (stackAddr s.sp) v s
  { s with sp := s.sp - 1#8 }

/-- The increment, then one byte loaded at the new `SP` (R182). -/
def popByte (s : State) : Result Byte :=
  let s := { s with sp := s.sp + 1#8 }
  memRead (stackAddr s.sp) s

/-- High byte, then low byte (R183). -/
def pushBytes (w : Word) (s : State) : State :=
  pushByte (w.extractLsb' 0 8) (pushByte (w.extractLsb' 8 8) s)

/-- Low byte, then high byte (R184). -/
def popBytes (s : State) : Result Word :=
  (popByte s).andThen fun lo s => (popByte s).andThen fun hi s => .done (cat hi lo) s

/-- `push` (R181). -/
def execPush (data : Byte) (s : State) : Host.Outcome State Fault Refusal :=
  complete (pushByte data s)

/-- `pop` (R182). -/
def execPop (s : State) : Host.Outcome State Fault Refusal := completeByte (popByte s)

/-- `pushWord` (R183). -/
def execPushWord (word : Word) (s : State) : Host.Outcome State Fault Refusal :=
  complete (pushBytes word s)

/-- `popWord` (R184). -/
def execPopWord (s : State) : Host.Outcome State Fault Refusal := completeWord (popBytes s)

end Sys2Proof.Machine
end

