-- ==== Sys2Proof/Machine/Dispatch.lean ====
section
/-! DEFINITION. One arm per constructor of `Instr`: the meaning of each command (30_encoding.md R82). -/

namespace Sys2Proof.Machine

def exec (i : Instr) (s : State) : Host.Outcome State Fault Refusal :=
  match i with
  | .read addr => Sys2Proof.Machine.execRead addr s
  | .write addr data => Sys2Proof.Machine.execWrite addr data s
  | .installReadHandler start stop hid => Sys2Proof.Machine.execInstallReadHandler start stop hid s
  | .installWriteHandler start stop hid => Sys2Proof.Machine.execInstallWriteHandler start stop hid s
  | .readOperandNone pbp rmw => Sys2Proof.Machine.execReadOperandNone pbp rmw s
  | .readOperandDir pbp rmw => Sys2Proof.Machine.execReadOperandDir pbp rmw s
  | .readOperandImm pbp rmw => Sys2Proof.Machine.execReadOperandImm pbp rmw s
  | .readOperandZp pbp rmw => Sys2Proof.Machine.execReadOperandZp pbp rmw s
  | .readOperandAbs pbp rmw => Sys2Proof.Machine.execReadOperandAbs pbp rmw s
  | .readOperandZpx pbp rmw => Sys2Proof.Machine.execReadOperandZpx pbp rmw s
  | .readOperandZpy pbp rmw => Sys2Proof.Machine.execReadOperandZpy pbp rmw s
  | .readOperandAbsx pbp rmw => Sys2Proof.Machine.execReadOperandAbsx pbp rmw s
  | .readOperandAbsy pbp rmw => Sys2Proof.Machine.execReadOperandAbsy pbp rmw s
  | .readOperandIndx pbp rmw => Sys2Proof.Machine.execReadOperandIndx pbp rmw s
  | .readOperandIndy pbp rmw => Sys2Proof.Machine.execReadOperandIndy pbp rmw s
  | .readOperandOutside code pbp rmw => Sys2Proof.Machine.execReadOperandOutside code pbp rmw s
  | .writeOperandNone pbp rmw data => Sys2Proof.Machine.execWriteOperandNone pbp rmw data s
  | .writeOperandDir pbp rmw data => Sys2Proof.Machine.execWriteOperandDir pbp rmw data s
  | .writeOperandImm pbp rmw data => Sys2Proof.Machine.execWriteOperandImm pbp rmw data s
  | .writeOperandZp pbp rmw data => Sys2Proof.Machine.execWriteOperandZp pbp rmw data s
  | .writeOperandAbs pbp rmw data => Sys2Proof.Machine.execWriteOperandAbs pbp rmw data s
  | .writeOperandZpx pbp rmw data => Sys2Proof.Machine.execWriteOperandZpx pbp rmw data s
  | .writeOperandZpy pbp rmw data => Sys2Proof.Machine.execWriteOperandZpy pbp rmw data s
  | .writeOperandAbsx pbp rmw data => Sys2Proof.Machine.execWriteOperandAbsx pbp rmw data s
  | .writeOperandAbsy pbp rmw data => Sys2Proof.Machine.execWriteOperandAbsy pbp rmw data s
  | .writeOperandIndx pbp rmw data => Sys2Proof.Machine.execWriteOperandIndx pbp rmw data s
  | .writeOperandIndy pbp rmw data => Sys2Proof.Machine.execWriteOperandIndy pbp rmw data s
  | .writeOperandOutside code pbp rmw data => Sys2Proof.Machine.execWriteOperandOutside code pbp rmw data s
  | .resetForNextInstruction => Sys2Proof.Machine.execResetForNextInstruction s
  | .push data => Sys2Proof.Machine.execPush data s
  | .pop => Sys2Proof.Machine.execPop s
  | .pushWord word => Sys2Proof.Machine.execPushWord word s
  | .popWord => Sys2Proof.Machine.execPopWord s

end Sys2Proof.Machine
end

