-- ==== Sys2Proof/Machine/Port.lean ====
section
/-! DEFINITION. What the environment's next act asks of the block (10_state.md R27, 30_encoding.md
R80, R96, 70_reset_and_hazards.md R230): the fetch of this machine, whose program is the sequence of
command words its environment presents (log 10). -/

namespace Sys2Proof.Machine

/-- What one step is to do. -/
inductive Fetched where
  /-- No command arrives: this state is next. -/
  | settled (s : State)
  /-- A command was accepted and is to be executed in this state. -/
  | accepted (i : Instr) (s : State)
  /-- A command word was refused (R96). -/
  | refused (r : Refusal)

/-- A command word on the command port: refused while the block is faulted (R203), refused when it
selects no command (R93, R94), else accepted. -/
def present (w : CmdWord) (s : State) : Fetched :=
  match s.fault with
  | some _ => .refused .blockFaulted
  | none =>
    match decode w with
    | .error why => .refused (.malformed why)
    | .ok i => .accepted i s

/-- The next act of the environment taken; with none the block does nothing (R231). -/
def fetch (s : State) : Fetched :=
  match s.inputs with
  | [] => .settled s
  | .command w :: rest => present w { s with inputs := rest }
  | .setPc v :: rest => .settled { s with inputs := rest, pc := v }
  | .setA v :: rest => .settled { s with inputs := rest, a := v }
  | .setX v :: rest => .settled { s with inputs := rest, x := v }
  | .setY v :: rest => .settled { s with inputs := rest, y := v }
  | .setSp v :: rest => .settled { s with inputs := rest, sp := v }
  | .addCyc n :: rest => .settled { s with inputs := rest, cyc := s.cyc + n }
  | .reset :: rest => .settled (resetBlock { s with inputs := rest })

/-- The environment with this command word as its next act. -/
def presentNext (w : CmdWord) (s : State) : State := { s with inputs := .command w :: s.inputs }

end Sys2Proof.Machine
end

