-- ==== Sys2Proof/Safety.lean ====
section
/-! DEFINITION. The terms claims are stated in: the invariant of the block, what a fault outcome
carries, a run of commands, the environment's obligations (70_reset_and_hazards.md section 3), and
the spec's own summary of `resolve` (41_resolver.md R148), written from its table in natural-number
arithmetic and not from the model's functions. -/

namespace Sys2Proof.Machine

/-! ### The invariant -/

/-- Both tables are in canonical form; a memoized address is one `resolve` can give, at most 0x100FE
(R131, R140); and there is a last-read value only where there is a memoized address (R31, R32: both
are set inside one instruction and cleared together). -/
def State.inv (s : State) : Bool :=
  s.rt.wf && s.wt.wf
    && (match s.ea with
        | none => true
        | some ea => decide (ea.toNat ≤ 0x100FE))
    && (s.lr.isNone || s.ea.isSome)

/-! ### What a fault outcome carries (R203) -/

def Fault.after : Fault → State
  | .unmappedRead _ t => t
  | .unimplementedMode _ t => t

/-- Code 1 UnmappedRead, code 2 UnimplementedMode (60_exceptions.md section 1). -/
def Fault.code : Fault → BitVec 2
  | .unmappedRead _ _ => 1
  | .unimplementedMode _ _ => 2

/-- The masked address, or the mode zero-extended to 16 bits (60_exceptions.md section 1). -/
def Fault.info : Fault → Word
  | .unmappedRead a _ => a
  | .unimplementedMode m _ => m.setWidth 16

/-! ### Runs of commands -/

/-- The commands executed one after the other, up to the first fault or refusal (R64, R245). -/
def runCommands (cmds : List Instr) (s : State) : Host.Outcome State Fault Refusal :=
  match cmds with
  | [] => .next s
  | i :: rest =>
    match exec i s with
    | .next t => runCommands rest t
    | .fault f => .fault f
    | .refused r => .refused r

/-- The binding that the last `installReadHandler` of the sequence over slot `a` gives, or `before`
when there is none (R114). -/
def lastReadInstall (cmds : List Instr) (a : Word) (before : Option HandlerId) : Option HandlerId :=
  match cmds with
  | [] => before
  | .installReadHandler start stop h :: rest =>
    lastReadInstall rest a (if start.toNat ≤ a.toNat ∧ a.toNat ≤ stop.toNat then some h else before)
  | _ :: rest => lastReadInstall rest a before

/-- The same for `installWriteHandler` (R114). -/
def lastWriteInstall (cmds : List Instr) (a : Word) (before : Option HandlerId) :
    Option HandlerId :=
  match cmds with
  | [] => before
  | .installWriteHandler start stop h :: rest =>
    lastWriteInstall rest a (if start.toNat ≤ a.toNat ∧ a.toNat ≤ stop.toNat then some h else before)
  | _ :: rest => lastWriteInstall rest a before

/-! ### Bus events -/

def BusEvent.addr : BusEvent → Word
  | .read _ a _ => a
  | .write _ a _ => a

/-- The event goes to the handler its address is bound to (R110, R111). -/
def BusEvent.goesToBound (s : State) : BusEvent → Prop
  | .read h a _ => s.rt.lookup a = some h
  | .write h a _ => s.wt.lookup a = some h

/-- The events of a dispatcher write: one, or none at a slot with the default binding (R111). -/
def writeEvents (s : State) (a : Word) (v : Byte) : List BusEvent :=
  match s.wt.lookup a with
  | some h => [.write h a v]
  | none => []

/-- The byte last written to `a` among the events, `before` when there is none. -/
def lastWritten (events : List BusEvent) (a : Word) (before : Option Byte) : Option Byte :=
  match events with
  | [] => before
  | .write _ b v :: rest => lastWritten rest a (if b = a then some v else before)
  | .read _ _ _ :: rest => lastWritten rest a before

/-- The byte the first read of `a` among the events was answered with, if there is one. -/
def firstAnswer (events : List BusEvent) (a : Word) : Option Byte :=
  match events with
  | [] => none
  | .read _ b v :: rest => if b = a then some v else firstAnswer rest a
  | .write _ _ _ :: rest => firstAnswer rest a

/-- A handler that stores what is written at `a` and returns it on a read: over the events `written`
and then `answered`, the first read of `a` is answered with the byte last written there (R65,
R186). -/
def storesAt (a : Word) (written answered : List BusEvent) : Prop :=
  ∀ v, lastWritten written a none = some v → ∀ b, firstAnswer answered a = some b → b = v

/-! ### Obligations on the environment -/

/-- Every operand command of the sequence carries this descriptor (R237: `OPDEF[opcode]`, whatever
the opcode's is). -/
def carriesDescriptor (d : Descriptor) (cmds : List Instr) : Prop :=
  ∀ i ∈ cmds, ∀ d', i.descriptor = some d' → d' = d

/-- The sequence stays inside one instruction: it holds no `resetForNextInstruction` (R163, R235). -/
def insideInstruction (cmds : List Instr) : Prop := Instr.resetForNextInstruction ∉ cmds

/-- A read-modify-write store comes after an operand read of its instruction (R238). -/
def readBeforeStore (cmds : List Instr) (readSeen : Bool) : Bool :=
  match cmds with
  | [] => true
  | i :: rest =>
    (match i.writeDescriptor with
      | some (d, _) => !d.rmw || d.mode == .direct || readSeen
      | none => true)
    && readBeforeStore rest
        (if i = .resetForNextInstruction then false
         else readSeen || (match i.readDescriptor with
                           | some d => d.mode != .direct
                           | none => false))

end Sys2Proof.Machine

namespace Sys2Proof

open Sys2Proof.Machine

/-! ### The spec's summary of `resolve` (R148) -/

/-- Modes 2 to 10: the nine that `resolve` has a rule for (R130). -/
def Mode.resolvable : Mode → Bool
  | .none | .direct | .outside _ => false
  | _ => true

/-- Column "PC advance" (R91, R148). -/
def Mode.pcAdvance : Mode → Nat
  | .none | .direct | .outside _ => 0
  | .absolute | .absoluteX | .absoluteY => 2
  | _ => 1

/-- The two bytes of a little-endian word as a number (R90). -/
def wordOf (lo hi : Byte) : Nat := lo.toNat + 256 * hi.toNat

/-- Column "addresses read, in order", from the answers the handlers give (R148). -/
def Mode.addressesRead (m : Mode) (s : State) : List Word :=
  let b := (answerAt s 0).toNat
  let base := (b + s.x.toNat) % 256
  match m with
  | .none | .direct | .outside _ | .immediate => []
  | .zeroPage | .zeroPageX | .zeroPageY => [s.pc]
  | .absolute | .absoluteX | .absoluteY => [s.pc, BitVec.ofNat 16 (s.pc.toNat + 1)]
  | .indirectX => [s.pc, BitVec.ofNat 16 base, BitVec.ofNat 16 ((base + 1) % 256)]
  | .indirectY => [s.pc, BitVec.ofNat 16 b, BitVec.ofNat 16 ((b + 1) % 256)]

/-- Column "result" (R148). -/
def Mode.result (m : Mode) (s : State) : Nat :=
  let b0 := answerAt s 0
  let b1 := answerAt s 1
  let b2 := answerAt s 2
  match m with
  | .none | .direct | .outside _ => 0
  | .immediate => s.pc.toNat
  | .zeroPage => b0.toNat
  | .absolute => wordOf b0 b1
  | .zeroPageX => (b0.toNat + s.x.toNat) % 256
  | .zeroPageY => (b0.toNat + s.y.toNat) % 256
  | .absoluteX => wordOf b0 b1 + s.x.toNat
  | .absoluteY => wordOf b0 b1 + s.y.toNat
  | .indirectX => wordOf b1 b2
  | .indirectY => (wordOf b1 b2 + s.y.toNat) % 65536

/-- `CROSS(w, i)` is true exactly when `w[7:0] + i >= 0x100` (R133). -/
def crosses (w : Nat) (i : Byte) : Bool := decide (256 ≤ w % 256 + i.toNat)

/-- Column "CYC" (R148). -/
def Mode.charge (m : Mode) (pbp : Bool) (s : State) : Nat :=
  match m with
  | .absoluteX => if pbp && crosses (wordOf (answerAt s 0) (answerAt s 1)) s.x then 1 else 0
  | .absoluteY => if pbp && crosses (wordOf (answerAt s 0) (answerAt s 1)) s.y then 1 else 0
  | .indirectY => if pbp && crosses (wordOf (answerAt s 1) (answerAt s 2)) s.y then 1 else 0
  | _ => 0

end Sys2Proof

namespace Sys2Proof.Machine

/-- The bus events of reads at these addresses, each going to its bound handler and taking the next
answer. -/
def readEvents (s : State) (addrs : List Word) : List BusEvent :=
  addrs.mapIdx fun k a => .read ((s.rt.lookup a).getD 0) a (answerAt s k)

/-- Every one of these addresses has a read handler. -/
def allMapped (s : State) (addrs : List Word) : Bool := addrs.all fun a => (s.rt.lookup a).isSome

/-- The state `resolve` leaves behind by the summary: the answers taken, the events emitted, `PC`
advanced, `CYC` charged, nothing else. -/
def summaryState (d : Descriptor) (s : State) : State :=
  { skipAnswers s (d.mode.addressesRead s).length with
    pc := BitVec.ofNat 16 (s.pc.toNat + d.mode.pcAdvance)
    cyc := s.cyc + d.mode.charge d.pbp s
    bus := s.bus ++ readEvents s (d.mode.addressesRead s) }

/-- The address `resolve` gives by the summary. -/
def summaryAddress (d : Descriptor) (s : State) : EffAddr := BitVec.ofNat 17 (d.mode.result s)

end Sys2Proof.Machine
end

