-- ==== Sys2Proof/Certificates/Slice0/Obligations.lean ====
section
/-! DEFINITION. The statements for the provers, from the numbered rules of spec/. -/

open Sys2Proof Sys2Proof.Machine

/-! ### Launch, reset, the environment's acts -/

/-- 10_state.md section 6: right after reset every slot of both tables is at its default, nothing is
memoized and no fault is latched. That the externally owned registers hold the launch parameters is
the model's form of R7 (log 5); that nothing has been emitted is log 8. -/
def Obligations.LaunchState : Prop :=
  (∀ a : Word, State.reset.rt.lookup a = none ∧ State.reset.wt.lookup a = none) ∧
  State.reset.ea = none ∧ State.reset.lr = none ∧ State.reset.fault = none ∧
  State.reset.bus = [] ∧
  State.reset.pc = Config.resetPc ∧ State.reset.a = Config.resetA ∧ State.reset.x = Config.resetX ∧
  State.reset.y = Config.resetY ∧ State.reset.sp = Config.resetSp ∧
  State.reset.cyc = Config.resetCyc

/-- R230: a reset, from any state, faulted or not, puts every slot of both tables at its default,
clears `EA_VALID`, `LR_VALID` and `FAULT`, writes no externally owned register and emits no bus
event. -/
def Obligations.ResetAction : Prop :=
  ∀ (s : State) (rest : List Input), s.inputs = .reset :: rest →
    ∃ t, step s = .next t ∧
      (∀ a : Word, t.rt.lookup a = none ∧ t.wt.lookup a = none) ∧
      t.ea = none ∧ t.lr = none ∧ t.fault = none ∧
      t.pc = s.pc ∧ t.a = s.a ∧ t.x = s.x ∧ t.y = s.y ∧ t.sp = s.sp ∧ t.cyc = s.cyc ∧
      t.bus = s.bus ∧ t.inputs = rest

/-- 10_state.md section 1 (R27): between two commands the environment writes any value to one of `PC`,
`A`, `X`, `Y`, `SP`, or adds to `CYC`, and nothing else changes; and the block does nothing until
something arrives (70_reset_and_hazards.md section 1, R231). That these acts stand in the list
`inputs` is the model's (log 10). -/
def Obligations.EnvironmentActs : Prop :=
  ∀ (s : State) (rest : List Input),
    (s.inputs = [] → step s = .next s) ∧
    (∀ v, s.inputs = .setPc v :: rest → step s = .next { s with inputs := rest, pc := v }) ∧
    (∀ v, s.inputs = .setA v :: rest → step s = .next { s with inputs := rest, a := v }) ∧
    (∀ v, s.inputs = .setX v :: rest → step s = .next { s with inputs := rest, x := v }) ∧
    (∀ v, s.inputs = .setY v :: rest → step s = .next { s with inputs := rest, y := v }) ∧
    (∀ v, s.inputs = .setSp v :: rest → step s = .next { s with inputs := rest, sp := v }) ∧
    (∀ n, s.inputs = .addCyc n :: rest → step s = .next { s with inputs := rest, cyc := s.cyc + n })

/-! ### The command port and the decoder -/

/-- A step takes the next command word and executes the command it decodes to, in the same state with
the word taken; nothing else happens around it (R64, R80). -/
def Obligations.StepRunsTheDecodedCommand : Prop :=
  ∀ (s : State) (w : CmdWord) (rest : List Input) (i : Instr),
    s.inputs = .command w :: rest → s.fault = none → decode w = .ok i →
      step s = exec i { s with inputs := rest }

/-- R96: a word that selects no command is refused, and so is every word while `FAULT = 1`; a refusal
has no next state, so no state changes. -/
def Obligations.RefusedWords : Prop :=
  ∀ (s : State) (w : CmdWord) (rest : List Input), s.inputs = .command w :: rest →
    (∀ e, s.fault = none → decode w = .error e → step s = .refused (.malformed e)) ∧
    (s.fault ≠ none → step s = .refused .blockFaulted)

/-- R204: a faulted block takes no command and keeps its fault through every other act of the
environment but a reset, which clears it. -/
def Obligations.OnlyResetClearsAFault : Prop :=
  ∀ s t : State, s.fault ≠ none → step s = .next t →
    (∃ rest, s.inputs = .reset :: rest ∧ t.fault = none) ∨
    (t.fault = s.fault ∧ t.bus = s.bus ∧ t.rt = s.rt ∧ t.wt = s.wt ∧ t.ea = s.ea ∧ t.lr = s.lr)

/-- Sanity: the words of 95_test_vectors.md section 6, "Round trip of every field", decode to the
commands that table names. -/
def Obligations.SampleWordsDecode : Prop :=
  decode 0x00000FFFF000 = .ok (.read 0x0000FFFF) ∧
  decode 0x1FFFFFFFF0FF = .ok (.write 0xFFFFFFFF 0xFF) ∧
  decode 0x220003FFF003 = .ok (.installReadHandler 0x2000 0x3FFF 0x003) ∧
  decode 0x34020FFFFABC = .ok (.installWriteHandler 0x4020 0xFFFF 0xABC) ∧
  decode 0x4AC000000000 = .ok (.readOperandIndy true true) ∧
  decode 0x420000000000 = .ok (.readOperandImm false false) ∧
  decode 0x534000000011 = .ok (.writeOperandZp false true 0x11) ∧
  decode 0x5880000000FE = .ok (.writeOperandAbsy true false 0xFE) ∧
  decode 0x600000000000 = .ok .resetForNextInstruction ∧
  decode 0x8000000000AB = .ok (.push 0xAB) ∧
  decode 0x900000000000 = .ok .pop ∧
  decode 0xA0000000ABCD = .ok (.pushWord 0xABCD) ∧
  decode 0xB00000000000 = .ok .popWord

/-- Decode and encode agree: every well-formed command, at every value of every operand, is what its
word decodes to (R81 to R88). -/
def Obligations.DecodeOfEncode : Prop :=
  ∀ i : Instr, i.wellFormed = true → decode (encode i) = .ok i

/-- Each accepted word is the encoding of the one command it decodes to (R81 to R88, R94). -/
def Obligations.EncodeOfDecode : Prop :=
  ∀ (w : CmdWord) (i : Instr), decode w = .ok i → i.wellFormed = true ∧ encode i = w

/-- R93, R94: exactly the words whose `OP`, bits 47 to 44, is 0x7 or 0xC to 0xF are refused for their
`OP`; and an assigned `OP` with a 1 in any bit its format marks reserved selects no command. -/
def Obligations.ReservedWordsRefused : Prop :=
  ∀ w : CmdWord,
    ((w.toNat / 2 ^ 44 = 7 ∨ 12 ≤ w.toNat / 2 ^ 44) ↔
      ∃ op, decode w = .error (.reservedOp op)) ∧
    (w.toNat / 2 ^ 44 = 0 → w.toNat % 2 ^ 12 ≠ 0 → decode w = .error (.reservedBits 0)) ∧
    (w.toNat / 2 ^ 44 = 1 → w.toNat / 2 ^ 8 % 2 ^ 4 ≠ 0 → decode w = .error (.reservedBits 1)) ∧
    (w.toNat / 2 ^ 44 = 4 → w.toNat % 2 ^ 38 ≠ 0 → decode w = .error (.reservedBits 4)) ∧
    (w.toNat / 2 ^ 44 = 5 → w.toNat / 2 ^ 8 % 2 ^ 30 ≠ 0 → decode w = .error (.reservedBits 5)) ∧
    (w.toNat / 2 ^ 44 = 6 → w.toNat % 2 ^ 44 ≠ 0 → decode w = .error (.reservedBits 6)) ∧
    (w.toNat / 2 ^ 44 = 8 → w.toNat / 2 ^ 8 % 2 ^ 36 ≠ 0 → decode w = .error (.reservedBits 8)) ∧
    (w.toNat / 2 ^ 44 = 9 → w.toNat % 2 ^ 44 ≠ 0 → decode w = .error (.reservedBits 9)) ∧
    (w.toNat / 2 ^ 44 = 10 → w.toNat / 2 ^ 16 % 2 ^ 28 ≠ 0 → decode w = .error (.reservedBits 10)) ∧
    (w.toNat / 2 ^ 44 = 11 → w.toNat % 2 ^ 44 ≠ 0 → decode w = .error (.reservedBits 11))

/-- 30_encoding.md section 7: a word matches a row of opcode_table.json exactly when it decodes to a
command of that row's mnemonic. -/
def Obligations.RowsAreTheDecoder : Prop :=
  ∀ row ∈ opcodeRows, ∀ w : CmdWord,
    row.admits w = true ↔ ∃ i, decode w = .ok i ∧ i.mnemonic = some row.mnemonic

/-- R87: the mode numbers, and how many operand bytes each mode has after the opcode. -/
def Obligations.ModeNumbers : Prop :=
  (Mode.ofCode 0 = .none ∧ Mode.ofCode 1 = .direct ∧ Mode.ofCode 2 = .immediate ∧
   Mode.ofCode 3 = .zeroPage ∧ Mode.ofCode 4 = .absolute ∧ Mode.ofCode 5 = .zeroPageX ∧
   Mode.ofCode 6 = .zeroPageY ∧ Mode.ofCode 7 = .absoluteX ∧ Mode.ofCode 8 = .absoluteY ∧
   Mode.ofCode 9 = .indirectX ∧ Mode.ofCode 10 = .indirectY) ∧
  (∀ c : BitVec 4, 11 ≤ c.toNat → Mode.ofCode c = .outside c) ∧
  ([Mode.none, .direct, .immediate, .zeroPage, .absolute, .zeroPageX, .zeroPageY, .absoluteX,
    .absoluteY, .indirectX, .indirectY].map Mode.pcAdvance = [0, 0, 1, 1, 2, 1, 1, 2, 2, 1, 1])

/-- R83: only `ADDR & 0xFFFF` counts: two words that differ only in `ADDR[31:16]` have the same
effect. -/
def Obligations.HighAddressBitsIgnored : Prop :=
  ∀ (a b : RawAddr) (v : Byte) (s : State), a.toNat % 65536 = b.toNat % 65536 →
    exec (.read a) s = exec (.read b) s ∧ exec (.write a v) s = exec (.write b v) s

/-! ### The dispatcher -/

/-- R110: `read` answers the byte of the handler bound to the masked address, with one bus event and
no other change; at a default slot it faults with no bus event. -/
def Obligations.ReadResult : Prop :=
  ∀ (addr : RawAddr) (a : Word) (s : State), a.toNat = addr.toNat % 65536 →
    (∀ h, s.rt.lookup a = some h →
      exec (.read addr) s = .next { skipAnswers s 1 with
        bus := s.bus ++ [.read h a (answerAt s 0)]
        rsp := some ((answerAt s 0).setWidth 16) }) ∧
    (s.rt.lookup a = none → exec (.read addr) s = .fault (.unmappedRead a (faulted 1 a s)))

/-- R111: `write` gives the byte to the handler bound to the masked address, and nothing at all
happens at a default slot; it always completes. -/
def Obligations.WriteResult : Prop :=
  ∀ (addr : RawAddr) (a : Word) (v : Byte) (s : State), a.toNat = addr.toNat % 65536 →
    (∀ h, s.wt.lookup a = some h →
      exec (.write addr v) s = .next { s with bus := s.bus ++ [.write h a v], rsp := none }) ∧
    (s.wt.lookup a = none → exec (.write addr v) s = .next { s with rsp := none })

/-- R112, R113: an install binds the slots `start` to `end` of its own table, both included, none when
`start > end`; every other slot, the other table and all else stay as they are, with no bus event.
It always completes. -/
def Obligations.InstallResult : Prop :=
  ∀ (start stop : Word) (h : HandlerId) (s : State),
    (∃ rt : Table,
      exec (.installReadHandler start stop h) s = .next { s with rt := rt, rsp := none } ∧
      ∀ a : Word, rt.lookup a =
        if start.toNat ≤ a.toNat ∧ a.toNat ≤ stop.toNat then some h else s.rt.lookup a) ∧
    (∃ wt : Table,
      exec (.installWriteHandler start stop h) s = .next { s with wt := wt, rsp := none } ∧
      ∀ a : Word, wt.lookup a =
        if start.toNat ≤ a.toNat ∧ a.toNat ≤ stop.toNat then some h else s.wt.lookup a)

/-- 40_dispatcher.md, last writer wins per address (the spec's derivation R114): after any run of
commands a slot holds what the last install over it gave, and what it held before where no install
covered it. -/
def Obligations.LastWriterWins : Prop :=
  ∀ (cmds : List Instr) (s t : State), runCommands cmds s = .next t → ∀ a : Word,
    t.rt.lookup a = lastReadInstall cmds a (s.rt.lookup a) ∧
    t.wt.lookup a = lastWriteInstall cmds a (s.wt.lookup a)

/-- 40_dispatcher.md, before any installation (the spec's derivation R115): every `read` faults and
every `write` has no observable effect. -/
def Obligations.BeforeInstallation : Prop :=
  ∀ s : State, (∀ a : Word, s.rt.lookup a = none) → (∀ a : Word, s.wt.lookup a = none) →
    ∀ (addr : RawAddr) (v : Byte),
      (∃ a t, exec (.read addr) s = .fault (.unmappedRead a t) ∧ a.toNat = addr.toNat % 65536 ∧
        t.bus = s.bus) ∧
      exec (.write addr v) s = .next { s with rsp := none }

/-! ### The resolver -/

/-- R131, R133: what each operation of the adder computes, in unbounded arithmetic with the stated
truncation; and the penalty, one cycle exactly when the descriptor asks for it and the addition
crosses a page, that is when `w[7:0] + i >= 0x100`. -/
def Obligations.AdderAndPenalty : Prop :=
  ∀ (b i hi lo : Byte) (w : Word) (pbp : Bool) (s : State),
    (zext b).toNat = b.toNat ∧
    (cat hi lo).toNat = lo.toNat + 256 * hi.toNat ∧
    (add8 b i).toNat = (b.toNat + i.toNat) % 256 ∧
    (inc8 b).toNat = (b.toNat + 1) % 256 ∧
    (add17 w i).toNat = w.toNat + i.toNat ∧
    (add16 w i).toNat = (w.toNat + i.toNat) % 65536 ∧
    (cross w i = true ↔ w.toNat / 256 ≠ (w.toNat + i.toNat) % 65536 / 256) ∧
    penalty w i pbp s =
      { s with cyc := s.cyc + if pbp = true ∧ 256 ≤ w.toNat % 256 + i.toNat then 1 else 0 }

/-- R135: the address is the old `PC`, which advances by 1; no bus event, no fault. -/
def Obligations.ResolveImmediate : Prop :=
  ∀ (pbp rmw : Bool) (s : State),
    resolve ⟨.immediate, pbp, rmw⟩ s =
      .done (BitVec.ofNat 17 s.pc.toNat) { s with pc := BitVec.ofNat 16 (s.pc.toNat + 1) }

/-- R136, R138, R139: the operand byte, plus nothing, `X` or `Y` modulo 256; no penalty whatever the
descriptor; the operand fetch can fault. -/
def Obligations.ResolveZeroPageModes : Prop :=
  ∀ (pbp rmw : Bool) (s : State),
    (∀ h, s.rt.lookup s.pc = some h →
      resolve ⟨.zeroPage, pbp, rmw⟩ s =
        .done (BitVec.ofNat 17 ((answerAt s 0).toNat))
          { skipAnswers s 1 with
            pc := BitVec.ofNat 16 (s.pc.toNat + 1)
            bus := s.bus ++ [.read h s.pc (answerAt s 0)] }) ∧
    (s.rt.lookup s.pc = none →
      resolve ⟨.zeroPage, pbp, rmw⟩ s = .raised (.unmappedRead s.pc (faulted 1 s.pc s))) ∧
    (∀ h, s.rt.lookup s.pc = some h →
      resolve ⟨.zeroPageX, pbp, rmw⟩ s =
        .done (BitVec.ofNat 17 (((answerAt s 0).toNat + s.x.toNat) % 256))
          { skipAnswers s 1 with
            pc := BitVec.ofNat 16 (s.pc.toNat + 1)
            bus := s.bus ++ [.read h s.pc (answerAt s 0)] }) ∧
    (s.rt.lookup s.pc = none →
      resolve ⟨.zeroPageX, pbp, rmw⟩ s = .raised (.unmappedRead s.pc (faulted 1 s.pc s))) ∧
    (∀ h, s.rt.lookup s.pc = some h →
      resolve ⟨.zeroPageY, pbp, rmw⟩ s =
        .done (BitVec.ofNat 17 (((answerAt s 0).toNat + s.y.toNat) % 256))
          { skipAnswers s 1 with
            pc := BitVec.ofNat 16 (s.pc.toNat + 1)
            bus := s.bus ++ [.read h s.pc (answerAt s 0)] }) ∧
    (s.rt.lookup s.pc = none →
      resolve ⟨.zeroPageY, pbp, rmw⟩ s = .raised (.unmappedRead s.pc (faulted 1 s.pc s)))

/-- R137, R140, R141 (R134): the word at `PC`, low byte first, plus nothing, `X` or `Y`, not masked; in
the indexed modes one cycle when `pbp` and the addition crosses; either operand read can fault, the
second after the first has been made. -/
def Obligations.ResolveAbsoluteModes : Prop :=
  ∀ (pbp rmw : Bool) (s : State) (pc1 : Word), pc1.toNat = (s.pc.toNat + 1) % 65536 →
    (∀ h0 h1, s.rt.lookup s.pc = some h0 → s.rt.lookup pc1 = some h1 →
      resolve ⟨.absolute, pbp, rmw⟩ s =
        .done (BitVec.ofNat 17 (wordOf (answerAt s 0) (answerAt s 1)))
          { skipAnswers s 2 with
            pc := BitVec.ofNat 16 (s.pc.toNat + 2)
            bus := s.bus ++ [.read h0 s.pc (answerAt s 0), .read h1 pc1 (answerAt s 1)] }) ∧
    (s.rt.lookup s.pc = none →
      resolve ⟨.absolute, pbp, rmw⟩ s = .raised (.unmappedRead s.pc (faulted 1 s.pc s))) ∧
    (∀ h0, s.rt.lookup s.pc = some h0 → s.rt.lookup pc1 = none →
      resolve ⟨.absolute, pbp, rmw⟩ s =
        .raised (.unmappedRead pc1 (faulted 1 pc1
          { skipAnswers s 1 with bus := s.bus ++ [.read h0 s.pc (answerAt s 0)] }))) ∧
    (∀ h0 h1, s.rt.lookup s.pc = some h0 → s.rt.lookup pc1 = some h1 →
      resolve ⟨.absoluteX, pbp, rmw⟩ s =
        .done (BitVec.ofNat 17 (wordOf (answerAt s 0) (answerAt s 1) + s.x.toNat))
          { skipAnswers s 2 with
            pc := BitVec.ofNat 16 (s.pc.toNat + 2)
            cyc := s.cyc + if pbp = true ∧ 256 ≤ (answerAt s 0).toNat + s.x.toNat then 1 else 0
            bus := s.bus ++ [.read h0 s.pc (answerAt s 0), .read h1 pc1 (answerAt s 1)] }) ∧
    (s.rt.lookup s.pc = none →
      resolve ⟨.absoluteX, pbp, rmw⟩ s = .raised (.unmappedRead s.pc (faulted 1 s.pc s))) ∧
    (∀ h0, s.rt.lookup s.pc = some h0 → s.rt.lookup pc1 = none →
      resolve ⟨.absoluteX, pbp, rmw⟩ s =
        .raised (.unmappedRead pc1 (faulted 1 pc1
          { skipAnswers s 1 with bus := s.bus ++ [.read h0 s.pc (answerAt s 0)] }))) ∧
    (∀ h0 h1, s.rt.lookup s.pc = some h0 → s.rt.lookup pc1 = some h1 →
      resolve ⟨.absoluteY, pbp, rmw⟩ s =
        .done (BitVec.ofNat 17 (wordOf (answerAt s 0) (answerAt s 1) + s.y.toNat))
          { skipAnswers s 2 with
            pc := BitVec.ofNat 16 (s.pc.toNat + 2)
            cyc := s.cyc + if pbp = true ∧ 256 ≤ (answerAt s 0).toNat + s.y.toNat then 1 else 0
            bus := s.bus ++ [.read h0 s.pc (answerAt s 0), .read h1 pc1 (answerAt s 1)] }) ∧
    (s.rt.lookup s.pc = none →
      resolve ⟨.absoluteY, pbp, rmw⟩ s = .raised (.unmappedRead s.pc (faulted 1 s.pc s))) ∧
    (∀ h0, s.rt.lookup s.pc = some h0 → s.rt.lookup pc1 = none →
      resolve ⟨.absoluteY, pbp, rmw⟩ s =
        .raised (.unmappedRead pc1 (faulted 1 pc1
          { skipAnswers s 1 with bus := s.bus ++ [.read h0 s.pc (answerAt s 0)] })))

/-- R142: the word at the zero-page pointer `base = (b + X) & 0xFF`, its high byte from
`(base + 1) & 0xFF`; any of the three reads can fault, the later ones then not made; no penalty. -/
def Obligations.ResolveIndirectX : Prop :=
  ∀ (pbp rmw : Bool) (s : State) (base base1 : Word),
    base.toNat = ((answerAt s 0).toNat + s.x.toNat) % 256 →
    base1.toNat = (base.toNat + 1) % 256 →
    (∀ h0 h1 h2, s.rt.lookup s.pc = some h0 → s.rt.lookup base = some h1 →
      s.rt.lookup base1 = some h2 →
      resolve ⟨.indirectX, pbp, rmw⟩ s =
        .done (BitVec.ofNat 17 (wordOf (answerAt s 1) (answerAt s 2)))
          { skipAnswers s 3 with
            pc := BitVec.ofNat 16 (s.pc.toNat + 1)
            bus := s.bus ++ [.read h0 s.pc (answerAt s 0), .read h1 base (answerAt s 1),
              .read h2 base1 (answerAt s 2)] }) ∧
    (s.rt.lookup s.pc = none →
      resolve ⟨.indirectX, pbp, rmw⟩ s = .raised (.unmappedRead s.pc (faulted 1 s.pc s))) ∧
    (∀ h0, s.rt.lookup s.pc = some h0 → s.rt.lookup base = none →
      resolve ⟨.indirectX, pbp, rmw⟩ s =
        .raised (.unmappedRead base (faulted 1 base
          { skipAnswers s 1 with bus := s.bus ++ [.read h0 s.pc (answerAt s 0)] }))) ∧
    (∀ h0 h1, s.rt.lookup s.pc = some h0 → s.rt.lookup base = some h1 →
      s.rt.lookup base1 = none →
      resolve ⟨.indirectX, pbp, rmw⟩ s =
        .raised (.unmappedRead base1 (faulted 1 base1
          { skipAnswers s 2 with
            bus := s.bus ++ [.read h0 s.pc (answerAt s 0), .read h1 base (answerAt s 1)] })))

/-- R143: the pointer is the operand byte, its high byte from `(p + 1) & 0xFF`; the address is
`(w + Y) & 0xFFFF`; one cycle when `pbp` and the addition to the un-indexed `w` crosses. -/
def Obligations.ResolveIndirectY : Prop :=
  ∀ (pbp rmw : Bool) (s : State) (p p1 : Word),
    p.toNat = (answerAt s 0).toNat → p1.toNat = (p.toNat + 1) % 256 →
    (∀ h0 h1 h2, s.rt.lookup s.pc = some h0 → s.rt.lookup p = some h1 → s.rt.lookup p1 = some h2 →
      resolve ⟨.indirectY, pbp, rmw⟩ s =
        .done (BitVec.ofNat 17 ((wordOf (answerAt s 1) (answerAt s 2) + s.y.toNat) % 65536))
          { skipAnswers s 3 with
            pc := BitVec.ofNat 16 (s.pc.toNat + 1)
            cyc := s.cyc + if pbp = true ∧ 256 ≤ (answerAt s 1).toNat + s.y.toNat then 1 else 0
            bus := s.bus ++ [.read h0 s.pc (answerAt s 0), .read h1 p (answerAt s 1),
              .read h2 p1 (answerAt s 2)] }) ∧
    (s.rt.lookup s.pc = none →
      resolve ⟨.indirectY, pbp, rmw⟩ s = .raised (.unmappedRead s.pc (faulted 1 s.pc s))) ∧
    (∀ h0, s.rt.lookup s.pc = some h0 → s.rt.lookup p = none →
      resolve ⟨.indirectY, pbp, rmw⟩ s =
        .raised (.unmappedRead p (faulted 1 p
          { skipAnswers s 1 with bus := s.bus ++ [.read h0 s.pc (answerAt s 0)] }))) ∧
    (∀ h0 h1, s.rt.lookup s.pc = some h0 → s.rt.lookup p = some h1 → s.rt.lookup p1 = none →
      resolve ⟨.indirectY, pbp, rmw⟩ s =
        .raised (.unmappedRead p1 (faulted 1 p1
          { skipAnswers s 2 with
            bus := s.bus ++ [.read h0 s.pc (answerAt s 0), .read h1 p (answerAt s 1)] })))

/-- 41_resolver.md section 3, the summary of `resolve` by mode (the spec's derivation R148): with
every address it reads mapped, each of the nine modes gives the summary's address and state. -/
def Obligations.ResolveFollowsTheSummary : Prop :=
  ∀ (d : Descriptor) (s : State), d.mode.resolvable = true →
    allMapped s (d.mode.addressesRead s) = true →
      resolve d s = .done (summaryAddress d s) (summaryState d s)

/-- R205 for `resolve`: the first address of the summary's list that is not mapped is the one
reported, after the events of the reads before it and no other. -/
def Obligations.ResolveReportsTheFirstUnmappedRead : Prop :=
  ∀ (d : Descriptor) (s : State) (k : Nat) (a : Word),
    (d.mode.addressesRead s)[k]? = some a →
    allMapped s ((d.mode.addressesRead s).take k) = true →
    s.rt.lookup a = none →
      resolve d s = .raised (.unmappedRead a (faulted 1 a
        { skipAnswers s k with
          bus := s.bus ++ readEvents s ((d.mode.addressesRead s).take k) }))

/-- R144, R145: `resolve` with `MODE` 0, 1 or 11 to 15 raises the fault before any other effect: no
byte consumed, no cycle, no bus event. So an operand command in mode None or 11 to 15 faults that way
while no address is memoized. -/
def Obligations.UnimplementedModes : Prop :=
  ∀ (pbp rmw : Bool) (v : Byte) (c : BitVec 4) (s : State),
    resolve ⟨.none, pbp, rmw⟩ s = .raised (.unimplementedMode 0 (faulted 2 0 s)) ∧
    resolve ⟨.direct, pbp, rmw⟩ s = .raised (.unimplementedMode 1 (faulted 2 1 s)) ∧
    resolve ⟨.outside c, pbp, rmw⟩ s =
      .raised (.unimplementedMode c (faulted 2 (BitVec.ofNat 16 c.toNat) s)) ∧
    (s.ea = none →
      exec (.readOperandNone pbp rmw) s = .fault (.unimplementedMode 0 (faulted 2 0 s)) ∧
      exec (.writeOperandNone pbp rmw v) s = .fault (.unimplementedMode 0 (faulted 2 0 s)) ∧
      exec (.readOperandOutside c pbp rmw) s =
        .fault (.unimplementedMode c (faulted 2 (BitVec.ofNat 16 c.toNat) s)) ∧
      exec (.writeOperandOutside c pbp rmw v) s =
        .fault (.unimplementedMode c (faulted 2 (BitVec.ofNat 16 c.toNat) s)))

/-! ### The operand accessor -/

/-- R160, the first access of an instruction, for `readOperand` in the modes Immediate, ZeroPage,
Absolute, ZeroPageX, ZeroPageY, AbsoluteX, AbsoluteY, IndirectX and IndirectY: the address is
resolved and memoized, the byte there is read, returned and remembered. -/
def Obligations.ReadOperandFirstAccess : Prop :=
  ∀ (i : Instr) (d : Descriptor) (s : State) (h : HandlerId) (a : Word),
    i.readDescriptor = some d → d.mode.resolvable = true → s.ea = none →
    allMapped s (d.mode.addressesRead s) = true →
    a.toNat = d.mode.result s % 65536 → s.rt.lookup a = some h →
      exec i s = .next { skipAnswers (summaryState d s) 1 with
        ea := some (summaryAddress d s)
        lr := some (answerAt (summaryState d s) 0)
        bus := (summaryState d s).bus ++ [.read h a (answerAt (summaryState d s) 0)]
        rsp := some ((answerAt (summaryState d s) 0).setWidth 16) }

/-- R160, every later access, for `readOperand` in every mode but Direct, None and 11 to 15 included:
the memoized address is used whatever the mode and the registers say now, with one bus read. -/
def Obligations.ReadOperandMemoized : Prop :=
  ∀ (i : Instr) (d : Descriptor) (s : State) (e : EffAddr) (h : HandlerId) (a : Word),
    i.readDescriptor = some d → d.mode ≠ .direct → s.ea = some e →
    a.toNat = e.toNat % 65536 → s.rt.lookup a = some h →
      exec i s = .next { skipAnswers s 1 with
        lr := some (answerAt s 0)
        bus := s.bus ++ [.read h a (answerAt s 0)]
        rsp := some ((answerAt s 0).setWidth 16) }

/-- R200 for `readOperand`: the final read, at the resolved or the memoized address, faults at a
default slot, after the bus events of `resolve`. -/
def Obligations.ReadOperandFinalFault : Prop :=
  ∀ (i : Instr) (d : Descriptor) (s : State) (a : Word), i.readDescriptor = some d →
    s.rt.lookup a = none →
    (d.mode.resolvable = true → s.ea = none → allMapped s (d.mode.addressesRead s) = true →
      a.toNat = d.mode.result s % 65536 →
        exec i s = .fault (.unmappedRead a (faulted 1 a (summaryState d s)))) ∧
    (∀ e, d.mode ≠ .direct → s.ea = some e → a.toNat = e.toNat % 65536 →
      exec i s = .fault (.unmappedRead a (faulted 1 a s)))

/-- R205 for the operand commands of either kind: a fault of `resolve` ends the command with that
fault and nothing after it. -/
def Obligations.ResolveFaultEndsTheCommand : Prop :=
  ∀ (i : Instr) (d : Descriptor) (s : State) (f : Fault), i.descriptor = some d →
    d.mode ≠ .direct → s.ea = none → resolve d s = .raised f → exec i s = .fault f

/-- R161, the first access of an instruction, for `writeOperand` in the modes Immediate, ZeroPage,
Absolute, ZeroPageX, ZeroPageY, AbsoluteX, AbsoluteY, IndirectX and IndirectY: the address is
resolved and memoized, then the store is made there. -/
def Obligations.WriteOperandFirstAccess : Prop :=
  ∀ (i : Instr) (d : Descriptor) (v : Byte) (s : State),
    i.writeDescriptor = some (d, v) → d.mode.resolvable = true → s.ea = none →
    allMapped s (d.mode.addressesRead s) = true →
      exec i s = .next { storeOperand d.rmw v (summaryAddress d s)
          { summaryState d s with ea := some (summaryAddress d s) } with
        rsp := none }

/-- R161, every later access, for `writeOperand` in every mode but Direct, None and 11 to 15
included: the store is made at the memoized address; it always completes. -/
def Obligations.WriteOperandMemoized : Prop :=
  ∀ (i : Instr) (d : Descriptor) (v : Byte) (s : State) (e : EffAddr),
    i.writeDescriptor = some (d, v) → d.mode ≠ .direct → s.ea = some e →
      exec i s = .next { storeOperand d.rmw v e s with rsp := none }

/-- R161, the store: one write of `v` at `EA & 0xFFFF`; for a read-modify-write descriptor the
last-read value first, or, where there is none, a byte under no law (a free value, log 4). At a
default slot nothing is emitted. Nothing else changes. -/
def Obligations.StoreAtTheOperand : Prop :=
  ∀ (v : Byte) (e : EffAddr) (s : State) (a : Word), a.toNat = e.toNat % 65536 →
    storeOperand false v e s = { s with bus := s.bus ++ writeEvents s a v } ∧
    (∀ b, s.lr = some b →
      storeOperand true v e s = { s with bus := s.bus ++ writeEvents s a b ++ writeEvents s a v }) ∧
    (s.lr = none → ∃ b,
      storeOperand true v e s =
        { s with
          bus := s.bus ++ writeEvents s a b ++ writeEvents s a v
          draws := s.draws + 1 })

/-- R164: Direct mode reads or writes `A` and nothing else; it always completes. -/
def Obligations.DirectMode : Prop :=
  ∀ (pbp rmw : Bool) (v : Byte) (s : State),
    exec (.readOperandDir pbp rmw) s = .next { s with rsp := some (BitVec.ofNat 16 s.a.toNat) } ∧
    exec (.writeOperandDir pbp rmw v) s = .next { s with a := v, rsp := none }

/-- R162: the boundary clears `EA_VALID` and `LR_VALID` and nothing else; twice equals once. -/
def Obligations.InstructionBoundary : Prop :=
  ∀ s : State,
    exec .resetForNextInstruction s = .next { s with ea := none, lr := none, rsp := none } ∧
    exec .resetForNextInstruction { s with ea := none, lr := none, rsp := none } =
      .next { s with ea := none, lr := none, rsp := none }

/-- 42_operand_accessor.md, single resolution (the spec's derivation R163): once an address is
memoized, no run of commands inside the instruction moves it, `PC` or `CYC`. -/
def Obligations.SingleResolution : Prop :=
  ∀ (cmds : List Instr) (s t : State) (e : EffAddr), insideInstruction cmds → s.ea = some e →
    runCommands cmds s = .next t → t.ea = some e ∧ t.pc = s.pc ∧ t.cyc = s.cyc

/-- 42_operand_accessor.md, idempotent address (the spec's derivation R165): inside an instruction
every bus event of its operand commands after the address is memoized is at `EA & 0xFFFF`. -/
def Obligations.IdempotentAddress : Prop :=
  ∀ (cmds : List Instr) (s t : State) (e : EffAddr),
    (∀ i ∈ cmds, i.descriptor ≠ none) → s.ea = some e → runCommands cmds s = .next t →
      ∃ events, t.bus = s.bus ++ events ∧ ∀ x ∈ events, x.addr.toNat = e.toNat % 65536

/-- 30_encoding.md section 3 (R91): over the commands of one instruction, each carrying the one
descriptor of its opcode (R237), `PC` advances by the number of operand bytes of the mode, or not at
all where no address was resolved. -/
def Obligations.PcAdvancesByTheMode : Prop :=
  ∀ (d : Descriptor) (cmds : List Instr) (s t : State), insideInstruction cmds →
    carriesDescriptor d cmds → s.ea = none → runCommands cmds s = .next t →
      (t.ea = none ∧ t.pc = s.pc) ∨
      (t.ea ≠ none ∧ t.pc = BitVec.ofNat 16 (s.pc.toNat + d.mode.pcAdvance))

/-- 70_reset_and_hazards.md section 3 (R238): where every read-modify-write store comes after an
operand read of its instruction, and the handlers' answers do not run out, no free value is ever
drawn (log 3, log 4, log 21: the draw index is the model's own field). -/
def Obligations.ReadBeforeStoreDrawsNothing : Prop :=
  ∀ (cmds : List Instr) (s t : State), readBeforeStore cmds s.lr.isSome = true →
    runCommands cmds s = .next t → t.answers ≠ [] → t.draws = s.draws

/-! ### The stack unit -/

/-- R181 (R180): the byte goes to `0x0100 + SP`, then `SP` decrements modulo 256; at a default slot
the byte is lost and `SP` still decrements. It always completes. -/
def Obligations.PushResult : Prop :=
  ∀ (v : Byte) (s : State) (a : Word), a.toNat = 0x100 + s.sp.toNat →
    exec (.push v) s = .next { s with
      sp := BitVec.ofNat 8 (s.sp.toNat + 255)
      bus := s.bus ++ writeEvents s a v
      rsp := none }

/-- R182: `SP` increments modulo 256, then the byte at `0x0100 + SP` is read and returned; at a
default slot the read faults. -/
def Obligations.PopResult : Prop :=
  ∀ (s : State) (a : Word), a.toNat = 0x100 + (s.sp.toNat + 1) % 256 →
    (∀ h, s.rt.lookup a = some h →
      exec .pop s = .next { skipAnswers s 1 with
        sp := BitVec.ofNat 8 (s.sp.toNat + 1)
        bus := s.bus ++ [.read h a (answerAt s 0)]
        rsp := some ((answerAt s 0).setWidth 16) }) ∧
    (s.rt.lookup a = none → exec .pop s = .fault (.unmappedRead a (faulted 1 a s)))

/-- R183: high byte at `0x0100 + SP`, then low byte at `0x0100 + ((SP - 1) & 0xFF)`; it always
completes. -/
def Obligations.PushWordResult : Prop :=
  ∀ (w : Word) (s : State) (a1 a2 : Word), a1.toNat = 0x100 + s.sp.toNat →
    a2.toNat = 0x100 + (s.sp.toNat + 255) % 256 →
    exec (.pushWord w) s = .next { s with
      sp := BitVec.ofNat 8 (s.sp.toNat + 254)
      bus := s.bus ++ writeEvents s a1 (BitVec.ofNat 8 (w.toNat / 256))
        ++ writeEvents s a2 (BitVec.ofNat 8 (w.toNat % 256))
      rsp := none }

/-- R184: low byte at `0x0100 + ((SP + 1) & 0xFF)`, then high byte at `0x0100 + ((SP + 2) & 0xFF)`;
either read can fault, the second after the first has been made. -/
def Obligations.PopWordResult : Prop :=
  ∀ (s : State) (a1 a2 : Word), a1.toNat = 0x100 + (s.sp.toNat + 1) % 256 →
    a2.toNat = 0x100 + (s.sp.toNat + 2) % 256 →
    (∀ h1 h2, s.rt.lookup a1 = some h1 → s.rt.lookup a2 = some h2 →
      exec .popWord s = .next { skipAnswers s 2 with
        sp := BitVec.ofNat 8 (s.sp.toNat + 2)
        bus := s.bus ++ [.read h1 a1 (answerAt s 0), .read h2 a2 (answerAt s 1)]
        rsp := some (BitVec.ofNat 16 (wordOf (answerAt s 0) (answerAt s 1))) }) ∧
    (s.rt.lookup a1 = none → exec .popWord s = .fault (.unmappedRead a1 (faulted 1 a1 s))) ∧
    (∀ h1, s.rt.lookup a1 = some h1 → s.rt.lookup a2 = none →
      exec .popWord s = .fault (.unmappedRead a2 (faulted 1 a2
        { skipAnswers s 1 with bus := s.bus ++ [.read h1 a1 (answerAt s 0)] })))

/-- 43_stack_unit.md, round trip (the spec's derivation R186): a word pushed and popped with nothing
between comes back, with `SP` restored, where the two stack addresses are bound for writes and their
handler stores what is written and returns it; and so does a byte. -/
def Obligations.StackRoundTrip : Prop :=
  (∀ (w : Word) (s t u : State) (a1 a2 : Word), a1.toNat = 0x100 + s.sp.toNat →
    a2.toNat = 0x100 + (s.sp.toNat + 255) % 256 →
    s.wt.lookup a1 ≠ none → s.wt.lookup a2 ≠ none →
    exec (.pushWord w) s = .next t → exec .popWord t = .next u →
    storesAt a1 (t.bus.drop s.bus.length) (u.bus.drop t.bus.length) →
    storesAt a2 (t.bus.drop s.bus.length) (u.bus.drop t.bus.length) →
      u.rsp = some w ∧ u.sp = s.sp) ∧
  (∀ (v : Byte) (s t u : State) (a : Word), a.toNat = 0x100 + s.sp.toNat →
    s.wt.lookup a ≠ none →
    exec (.push v) s = .next t → exec .pop t = .next u →
    storesAt a (t.bus.drop s.bus.length) (u.bus.drop t.bus.length) →
      u.rsp = some (BitVec.ofNat 16 v.toNat) ∧ u.sp = s.sp)

/-- R185: whatever `SP` holds, the stack never leaves 0x0100 to 0x01FF, and a stack command that
stops has met a default slot of that page, nothing about `SP`. -/
def Obligations.StackStaysInItsPage : Prop :=
  ∀ (i : Instr) (s : State),
    (i = .pop ∨ i = .popWord ∨ (∃ v, i = .push v) ∨ (∃ w, i = .pushWord w)) →
    (∀ t, exec i s = .next t → ∃ events, t.bus = s.bus ++ events ∧
      ∀ x ∈ events, 0x100 ≤ x.addr.toNat ∧ x.addr.toNat ≤ 0x1FF) ∧
    (∀ f, exec i s = .fault f → f.code = 1 ∧ s.rt.lookup f.info = none ∧
      0x100 ≤ f.info.toNat ∧ f.info.toNat ≤ 0x1FF) ∧
    (∀ r, exec i s ≠ .refused r)

/-! ### Faults and the response port -/

/-- R202: a fault latches its code and info, which the response port then carries; the events emitted
before it stand, all of them reads; the tables and everything outside the block are as they were. -/
def Obligations.FaultEntry : Prop :=
  ∀ (i : Instr) (s : State) (f : Fault), exec i s = .fault f →
    f.after.fault = some ⟨f.code, f.info⟩ ∧
    responsePort f.after = .faulted f.code f.info ∧
    f.after.rt = s.rt ∧ f.after.wt = s.wt ∧ f.after.x = s.x ∧ f.after.y = s.y ∧
    f.after.inputs = s.inputs ∧
    ∃ events, f.after.bus = s.bus ++ events ∧ ∀ x ∈ events, ∃ h a v, x = .read h a v

/-- 60_exceptions.md section 1 (R200, R201, R207): a command faults only for a read of a default slot,
or for an operand command in mode None or 11 to 15 with no address memoized. -/
def Obligations.FaultCauses : Prop :=
  ∀ (i : Instr) (s : State) (f : Fault), exec i s = .fault f →
    (f.code = 1 ∧ s.rt.lookup f.info = none) ∨
    (f.code = 2 ∧ s.ea = none ∧ ∃ d, i.descriptor = some d ∧
      ((d.mode = .none ∧ f.info = 0) ∨ ∃ c, d.mode = .outside c ∧ f.info.toNat = c.toNat))

/-- R206: what is no fault: an unmapped write, an install of any range, a stack store at any `SP`, the
boundary, a Direct access, an Immediate store, a store at a memoized address, read-modify-write with
no earlier read or not. All of these complete in every state. -/
def Obligations.NoFaultFromStores : Prop :=
  ∀ (i : Instr) (s : State),
    ((∃ a v, i = .write a v) ∨ (∃ b e h, i = .installReadHandler b e h) ∨
     (∃ b e h, i = .installWriteHandler b e h) ∨ (∃ v, i = .push v) ∨ (∃ w, i = .pushWord w) ∨
     i = .resetForNextInstruction ∨ (∃ p r, i = .readOperandDir p r) ∨
     (∃ p r v, i = .writeOperandDir p r v) ∨ (∃ p r v, i = .writeOperandImm p r v) ∨
     (i.writeDescriptor ≠ none ∧ s.ea ≠ none)) →
    ∃ t, exec i s = .next t

/-- 30_encoding.md section 4 (R92): a command that completes leaves `fault` as it was, 0 in every
accepted command; `read`, `readOperand` and `pop` drive a byte with the high half 0, `popWord` a
word; every other command drives nothing a claim may use (log 9). -/
def Obligations.ResponseOfACommand : Prop :=
  ∀ (i : Instr) (s t : State), s.fault = none → exec i s = .next t →
    ((∃ a, i = .read a) ∨ i = .pop ∨ i.readDescriptor ≠ none →
      ∃ b : Byte, responsePort t = .completed (some (BitVec.ofNat 16 b.toNat))) ∧
    (i = .popWord → ∃ w : Word, responsePort t = .completed (some w)) ∧
    ((∀ a, i ≠ .read a) → i ≠ .pop → i ≠ .popWord → i.readDescriptor = none →
      responsePort t = .completed none)

/-! ### Whole-machine rules -/

/-- The invariant holds right after reset. -/
def Obligations.ResetMeetsTheInvariant : Prop := State.reset.inv = true

/-- The invariant is kept by every step: both tables stay canonical, a memoized address stays within
0x100FE (R131, R140), and there is a last-read value only where there is a memoized address (R31,
R32). -/
def Obligations.StepKeepsTheInvariant : Prop :=
  ∀ s t : State, s.inv = true → step s = .next t → t.inv = true

/-- 10_state.md sections 1 to 4, who writes what (R20 to R24, R28, R31, R32, R34): no command writes
`X`, `Y` or the latch when it completes; `A` only `writeOperand` Direct, `SP` only the stack
commands, `PC` and `CYC` only operand commands, each table only its install command, the memo and
the last-read value only operand commands and the boundary. -/
def Obligations.WhoWritesWhat : Prop :=
  ∀ (i : Instr) (s t : State), exec i s = .next t →
    t.x = s.x ∧ t.y = s.y ∧ t.fault = s.fault ∧ t.inputs = s.inputs ∧
    ((∀ p r v, i ≠ .writeOperandDir p r v) → t.a = s.a) ∧
    (i ≠ .pop → i ≠ .popWord → (∀ v, i ≠ .push v) → (∀ w, i ≠ .pushWord w) → t.sp = s.sp) ∧
    (i.descriptor = none → t.pc = s.pc ∧ t.cyc = s.cyc) ∧
    ((∀ b e h, i ≠ .installReadHandler b e h) → t.rt = s.rt) ∧
    ((∀ b e h, i ≠ .installWriteHandler b e h) → t.wt = s.wt) ∧
    (i.descriptor = none → i ≠ .resetForNextInstruction → t.ea = s.ea ∧ t.lr = s.lr) ∧
    (i.readDescriptor = none → i ≠ .resetForNextInstruction → t.lr = s.lr)

/-- 10_state.md section 1 (R25): a command adds at most 1 to `CYC`, only as the page-boundary penalty
of an instruction's first access in AbsoluteX, AbsoluteY or IndirectY with `pbp`; and no step ever
decreases it. -/
def Obligations.CyclesOnlyFromThePenalty : Prop :=
  (∀ (i : Instr) (s t : State), exec i s = .next t →
    t.cyc = s.cyc ∨
    (t.cyc = s.cyc + 1 ∧ s.ea = none ∧ ∃ d, i.descriptor = some d ∧ d.pbp = true ∧
      (d.mode = .absoluteX ∨ d.mode = .absoluteY ∨ d.mode = .indirectY))) ∧
  (∀ s t : State, step s = .next t → s.cyc ≤ t.cyc)

/-- 20_memory.md sections 4 and 6 (R10, R65): a step only adds bus events after those emitted before,
and each goes to the handler its address is bound to. -/
def Obligations.BusEventsGoToTheBoundHandler : Prop :=
  ∀ s t : State, step s = .next t →
    ∃ events, t.bus = s.bus ++ events ∧ ∀ x ∈ events, x.goesToBound s

/-- 10_state.md section 3 (the spec's derivation R33): while an address is memoized no step changes
it, but that the boundary and a reset clear it. -/
def Obligations.MemoNeverChanges : Prop :=
  ∀ (s t : State) (e : EffAddr), s.ea = some e → step s = .next t →
    t.ea = some e ∨
    (t.ea = none ∧ ((∃ rest, s.inputs = .reset :: rest) ∨
      ∃ w rest, s.inputs = .command w :: rest ∧ decode w = .ok .resetForNextInstruction))

/-- 10_state.md section 3 and 20_memory.md section 5 (R31, R60): a newly memoized address is in the
zero page in the modes ZeroPage, ZeroPageX and ZeroPageY, and has bit 16 set only in AbsoluteX and
AbsoluteY. -/
def Obligations.MemoizedAddressRange : Prop :=
  ∀ (i : Instr) (d : Descriptor) (s t : State) (e : EffAddr), i.descriptor = some d →
    exec i s = .next t → s.ea = none → t.ea = some e →
    ((d.mode = .zeroPage ∨ d.mode = .zeroPageX ∨ d.mode = .zeroPageY) → e.toNat < 256) ∧
    (d.mode ≠ .absoluteX → d.mode ≠ .absoluteY → e.toNat < 65536)

/-- 42_operand_accessor.md R160's corner case (R239): once an address is memoized, an operand command
neither consults nor moves `PC`, `X`, `Y` or `CYC`: with any other values in them it does the same. -/
def Obligations.MemoWinsOverTheRegisters : Prop :=
  ∀ (i : Instr) (s t : State) (pc : Word) (x y : Byte) (cyc : Nat), i.descriptor ≠ none →
    s.ea ≠ none → exec i s = .next t →
      exec i { s with pc := pc, x := x, y := y, cyc := cyc } =
        .next { t with pc := pc, x := x, y := y, cyc := cyc }

/-- R100: `pushWord` and `popWord` have the effect of two `push` and two `pop` commands issued with
nothing between: high byte first, low byte first. -/
def Obligations.WordCommandsAreTwoByteCommands : Prop :=
  (∀ (w : Word) (s : State),
    exec (.pushWord w) s =
      runCommands [.push (BitVec.ofNat 8 (w.toNat / 256)), .push (BitVec.ofNat 8 (w.toNat % 256))] s) ∧
  (∀ (s t u : State), exec .pop s = .next t → exec .pop t = .next u →
    ∃ lo hi : Byte, t.rsp = some (BitVec.ofNat 16 lo.toNat) ∧
      u.rsp = some (BitVec.ofNat 16 hi.toNat) ∧
      exec .popWord s = .next { u with rsp := some (BitVec.ofNat 16 (wordOf lo hi)) })
end

