-- ==== Sys2Proof/Laws/State.lean ====
section
/-! SUPPORT. One lemma per field per named update of the state, so that no proof unfolds a record
update. -/

namespace Sys2Proof.Machine

/-! ### skipAnswers -/

@[simp] theorem skipAnswers_pc (k : Nat) (s : State) :
    (skipAnswers s k).pc = s.pc := rfl
@[simp] theorem skipAnswers_a (k : Nat) (s : State) :
    (skipAnswers s k).a = s.a := rfl
@[simp] theorem skipAnswers_x (k : Nat) (s : State) :
    (skipAnswers s k).x = s.x := rfl
@[simp] theorem skipAnswers_y (k : Nat) (s : State) :
    (skipAnswers s k).y = s.y := rfl
@[simp] theorem skipAnswers_sp (k : Nat) (s : State) :
    (skipAnswers s k).sp = s.sp := rfl
@[simp] theorem skipAnswers_cyc (k : Nat) (s : State) :
    (skipAnswers s k).cyc = s.cyc := rfl
@[simp] theorem skipAnswers_rt (k : Nat) (s : State) :
    (skipAnswers s k).rt = s.rt := rfl
@[simp] theorem skipAnswers_wt (k : Nat) (s : State) :
    (skipAnswers s k).wt = s.wt := rfl
@[simp] theorem skipAnswers_ea (k : Nat) (s : State) :
    (skipAnswers s k).ea = s.ea := rfl
@[simp] theorem skipAnswers_lr (k : Nat) (s : State) :
    (skipAnswers s k).lr = s.lr := rfl
@[simp] theorem skipAnswers_fault (k : Nat) (s : State) :
    (skipAnswers s k).fault = s.fault := rfl
@[simp] theorem skipAnswers_rsp (k : Nat) (s : State) :
    (skipAnswers s k).rsp = s.rsp := rfl
@[simp] theorem skipAnswers_bus (k : Nat) (s : State) :
    (skipAnswers s k).bus = s.bus := rfl
@[simp] theorem skipAnswers_inputs (k : Nat) (s : State) :
    (skipAnswers s k).inputs = s.inputs := rfl
@[simp] theorem skipAnswers_answers (k : Nat) (s : State) :
    (skipAnswers s k).answers = s.answers.drop k := rfl
@[simp] theorem skipAnswers_draws (k : Nat) (s : State) :
    (skipAnswers s k).draws = s.draws + (k - s.answers.length) := rfl

/-! ### skipDraw -/

@[simp] theorem skipDraw_pc (s : State) :
    (skipDraw s).pc = s.pc := rfl
@[simp] theorem skipDraw_a (s : State) :
    (skipDraw s).a = s.a := rfl
@[simp] theorem skipDraw_x (s : State) :
    (skipDraw s).x = s.x := rfl
@[simp] theorem skipDraw_y (s : State) :
    (skipDraw s).y = s.y := rfl
@[simp] theorem skipDraw_sp (s : State) :
    (skipDraw s).sp = s.sp := rfl
@[simp] theorem skipDraw_cyc (s : State) :
    (skipDraw s).cyc = s.cyc := rfl
@[simp] theorem skipDraw_rt (s : State) :
    (skipDraw s).rt = s.rt := rfl
@[simp] theorem skipDraw_wt (s : State) :
    (skipDraw s).wt = s.wt := rfl
@[simp] theorem skipDraw_ea (s : State) :
    (skipDraw s).ea = s.ea := rfl
@[simp] theorem skipDraw_lr (s : State) :
    (skipDraw s).lr = s.lr := rfl
@[simp] theorem skipDraw_fault (s : State) :
    (skipDraw s).fault = s.fault := rfl
@[simp] theorem skipDraw_rsp (s : State) :
    (skipDraw s).rsp = s.rsp := rfl
@[simp] theorem skipDraw_bus (s : State) :
    (skipDraw s).bus = s.bus := rfl
@[simp] theorem skipDraw_inputs (s : State) :
    (skipDraw s).inputs = s.inputs := rfl
@[simp] theorem skipDraw_answers (s : State) :
    (skipDraw s).answers = s.answers := rfl
@[simp] theorem skipDraw_draws (s : State) :
    (skipDraw s).draws = s.draws + 1 := rfl

/-! ### advancePc -/

@[simp] theorem advancePc_pc (s : State) :
    (advancePc s).pc = s.pc + 1 := rfl
@[simp] theorem advancePc_a (s : State) :
    (advancePc s).a = s.a := rfl
@[simp] theorem advancePc_x (s : State) :
    (advancePc s).x = s.x := rfl
@[simp] theorem advancePc_y (s : State) :
    (advancePc s).y = s.y := rfl
@[simp] theorem advancePc_sp (s : State) :
    (advancePc s).sp = s.sp := rfl
@[simp] theorem advancePc_cyc (s : State) :
    (advancePc s).cyc = s.cyc := rfl
@[simp] theorem advancePc_rt (s : State) :
    (advancePc s).rt = s.rt := rfl
@[simp] theorem advancePc_wt (s : State) :
    (advancePc s).wt = s.wt := rfl
@[simp] theorem advancePc_ea (s : State) :
    (advancePc s).ea = s.ea := rfl
@[simp] theorem advancePc_lr (s : State) :
    (advancePc s).lr = s.lr := rfl
@[simp] theorem advancePc_fault (s : State) :
    (advancePc s).fault = s.fault := rfl
@[simp] theorem advancePc_rsp (s : State) :
    (advancePc s).rsp = s.rsp := rfl
@[simp] theorem advancePc_bus (s : State) :
    (advancePc s).bus = s.bus := rfl
@[simp] theorem advancePc_inputs (s : State) :
    (advancePc s).inputs = s.inputs := rfl
@[simp] theorem advancePc_answers (s : State) :
    (advancePc s).answers = s.answers := rfl
@[simp] theorem advancePc_draws (s : State) :
    (advancePc s).draws = s.draws := rfl

/-! ### busWrite -/

@[simp] theorem busWrite_pc (h : HandlerId) (b : Word) (v : Byte) (s : State) :
    (busWrite h b v s).pc = s.pc := rfl
@[simp] theorem busWrite_a (h : HandlerId) (b : Word) (v : Byte) (s : State) :
    (busWrite h b v s).a = s.a := rfl
@[simp] theorem busWrite_x (h : HandlerId) (b : Word) (v : Byte) (s : State) :
    (busWrite h b v s).x = s.x := rfl
@[simp] theorem busWrite_y (h : HandlerId) (b : Word) (v : Byte) (s : State) :
    (busWrite h b v s).y = s.y := rfl
@[simp] theorem busWrite_sp (h : HandlerId) (b : Word) (v : Byte) (s : State) :
    (busWrite h b v s).sp = s.sp := rfl
@[simp] theorem busWrite_cyc (h : HandlerId) (b : Word) (v : Byte) (s : State) :
    (busWrite h b v s).cyc = s.cyc := rfl
@[simp] theorem busWrite_rt (h : HandlerId) (b : Word) (v : Byte) (s : State) :
    (busWrite h b v s).rt = s.rt := rfl
@[simp] theorem busWrite_wt (h : HandlerId) (b : Word) (v : Byte) (s : State) :
    (busWrite h b v s).wt = s.wt := rfl
@[simp] theorem busWrite_ea (h : HandlerId) (b : Word) (v : Byte) (s : State) :
    (busWrite h b v s).ea = s.ea := rfl
@[simp] theorem busWrite_lr (h : HandlerId) (b : Word) (v : Byte) (s : State) :
    (busWrite h b v s).lr = s.lr := rfl
@[simp] theorem busWrite_fault (h : HandlerId) (b : Word) (v : Byte) (s : State) :
    (busWrite h b v s).fault = s.fault := rfl
@[simp] theorem busWrite_rsp (h : HandlerId) (b : Word) (v : Byte) (s : State) :
    (busWrite h b v s).rsp = s.rsp := rfl
@[simp] theorem busWrite_bus (h : HandlerId) (b : Word) (v : Byte) (s : State) :
    (busWrite h b v s).bus = s.bus ++ [.write h b v] := rfl
@[simp] theorem busWrite_inputs (h : HandlerId) (b : Word) (v : Byte) (s : State) :
    (busWrite h b v s).inputs = s.inputs := rfl
@[simp] theorem busWrite_answers (h : HandlerId) (b : Word) (v : Byte) (s : State) :
    (busWrite h b v s).answers = s.answers := rfl
@[simp] theorem busWrite_draws (h : HandlerId) (b : Word) (v : Byte) (s : State) :
    (busWrite h b v s).draws = s.draws := rfl

/-! ### busRead -/

@[simp] theorem busRead_pc (h : HandlerId) (b : Word) (s : State) :
    ((busRead h b s).2).pc = s.pc := rfl
@[simp] theorem busRead_a (h : HandlerId) (b : Word) (s : State) :
    ((busRead h b s).2).a = s.a := rfl
@[simp] theorem busRead_x (h : HandlerId) (b : Word) (s : State) :
    ((busRead h b s).2).x = s.x := rfl
@[simp] theorem busRead_y (h : HandlerId) (b : Word) (s : State) :
    ((busRead h b s).2).y = s.y := rfl
@[simp] theorem busRead_sp (h : HandlerId) (b : Word) (s : State) :
    ((busRead h b s).2).sp = s.sp := rfl
@[simp] theorem busRead_cyc (h : HandlerId) (b : Word) (s : State) :
    ((busRead h b s).2).cyc = s.cyc := rfl
@[simp] theorem busRead_rt (h : HandlerId) (b : Word) (s : State) :
    ((busRead h b s).2).rt = s.rt := rfl
@[simp] theorem busRead_wt (h : HandlerId) (b : Word) (s : State) :
    ((busRead h b s).2).wt = s.wt := rfl
@[simp] theorem busRead_ea (h : HandlerId) (b : Word) (s : State) :
    ((busRead h b s).2).ea = s.ea := rfl
@[simp] theorem busRead_lr (h : HandlerId) (b : Word) (s : State) :
    ((busRead h b s).2).lr = s.lr := rfl
@[simp] theorem busRead_fault (h : HandlerId) (b : Word) (s : State) :
    ((busRead h b s).2).fault = s.fault := rfl
@[simp] theorem busRead_rsp (h : HandlerId) (b : Word) (s : State) :
    ((busRead h b s).2).rsp = s.rsp := rfl
@[simp] theorem busRead_bus (h : HandlerId) (b : Word) (s : State) :
    ((busRead h b s).2).bus = s.bus ++ [.read h b (answerAt s 0)] := rfl
@[simp] theorem busRead_inputs (h : HandlerId) (b : Word) (s : State) :
    ((busRead h b s).2).inputs = s.inputs := rfl
@[simp] theorem busRead_answers (h : HandlerId) (b : Word) (s : State) :
    ((busRead h b s).2).answers = s.answers.drop 1 := rfl
@[simp] theorem busRead_draws (h : HandlerId) (b : Word) (s : State) :
    ((busRead h b s).2).draws = s.draws + (1 - s.answers.length) := rfl

/-! ### faulted -/

@[simp] theorem faulted_pc (c : BitVec 2) (i : Word) (s : State) :
    (faulted c i s).pc = (Config.afterFault s.draws).pc := rfl
@[simp] theorem faulted_a (c : BitVec 2) (i : Word) (s : State) :
    (faulted c i s).a = (Config.afterFault s.draws).a := rfl
@[simp] theorem faulted_x (c : BitVec 2) (i : Word) (s : State) :
    (faulted c i s).x = s.x := rfl
@[simp] theorem faulted_y (c : BitVec 2) (i : Word) (s : State) :
    (faulted c i s).y = s.y := rfl
@[simp] theorem faulted_sp (c : BitVec 2) (i : Word) (s : State) :
    (faulted c i s).sp = (Config.afterFault s.draws).sp := rfl
@[simp] theorem faulted_cyc (c : BitVec 2) (i : Word) (s : State) :
    (faulted c i s).cyc = (Config.afterFault s.draws).cyc := rfl
@[simp] theorem faulted_rt (c : BitVec 2) (i : Word) (s : State) :
    (faulted c i s).rt = s.rt := rfl
@[simp] theorem faulted_wt (c : BitVec 2) (i : Word) (s : State) :
    (faulted c i s).wt = s.wt := rfl
@[simp] theorem faulted_ea (c : BitVec 2) (i : Word) (s : State) :
    (faulted c i s).ea = (Config.afterFault s.draws).ea := rfl
@[simp] theorem faulted_lr (c : BitVec 2) (i : Word) (s : State) :
    (faulted c i s).lr = (Config.afterFault s.draws).lr := rfl
@[simp] theorem faulted_fault (c : BitVec 2) (i : Word) (s : State) :
    (faulted c i s).fault = some ⟨c, i⟩ := rfl
@[simp] theorem faulted_rsp (c : BitVec 2) (i : Word) (s : State) :
    (faulted c i s).rsp = none := rfl
@[simp] theorem faulted_bus (c : BitVec 2) (i : Word) (s : State) :
    (faulted c i s).bus = s.bus := rfl
@[simp] theorem faulted_inputs (c : BitVec 2) (i : Word) (s : State) :
    (faulted c i s).inputs = s.inputs := rfl
@[simp] theorem faulted_answers (c : BitVec 2) (i : Word) (s : State) :
    (faulted c i s).answers = s.answers := rfl
@[simp] theorem faulted_draws (c : BitVec 2) (i : Word) (s : State) :
    (faulted c i s).draws = s.draws + 1 := rfl

/-! ### resetBlock -/

@[simp] theorem resetBlock_pc (s : State) :
    (resetBlock s).pc = s.pc := rfl
@[simp] theorem resetBlock_a (s : State) :
    (resetBlock s).a = s.a := rfl
@[simp] theorem resetBlock_x (s : State) :
    (resetBlock s).x = s.x := rfl
@[simp] theorem resetBlock_y (s : State) :
    (resetBlock s).y = s.y := rfl
@[simp] theorem resetBlock_sp (s : State) :
    (resetBlock s).sp = s.sp := rfl
@[simp] theorem resetBlock_cyc (s : State) :
    (resetBlock s).cyc = s.cyc := rfl
@[simp] theorem resetBlock_rt (s : State) :
    (resetBlock s).rt = Table.default := rfl
@[simp] theorem resetBlock_wt (s : State) :
    (resetBlock s).wt = Table.default := rfl
@[simp] theorem resetBlock_ea (s : State) :
    (resetBlock s).ea = none := rfl
@[simp] theorem resetBlock_lr (s : State) :
    (resetBlock s).lr = none := rfl
@[simp] theorem resetBlock_fault (s : State) :
    (resetBlock s).fault = none := rfl
@[simp] theorem resetBlock_rsp (s : State) :
    (resetBlock s).rsp = none := rfl
@[simp] theorem resetBlock_bus (s : State) :
    (resetBlock s).bus = s.bus := rfl
@[simp] theorem resetBlock_inputs (s : State) :
    (resetBlock s).inputs = s.inputs := rfl
@[simp] theorem resetBlock_answers (s : State) :
    (resetBlock s).answers = s.answers := rfl
@[simp] theorem resetBlock_draws (s : State) :
    (resetBlock s).draws = s.draws := rfl

/-! ### presentNext -/

@[simp] theorem presentNext_pc (w : CmdWord) (s : State) :
    (presentNext w s).pc = s.pc := rfl
@[simp] theorem presentNext_a (w : CmdWord) (s : State) :
    (presentNext w s).a = s.a := rfl
@[simp] theorem presentNext_x (w : CmdWord) (s : State) :
    (presentNext w s).x = s.x := rfl
@[simp] theorem presentNext_y (w : CmdWord) (s : State) :
    (presentNext w s).y = s.y := rfl
@[simp] theorem presentNext_sp (w : CmdWord) (s : State) :
    (presentNext w s).sp = s.sp := rfl
@[simp] theorem presentNext_cyc (w : CmdWord) (s : State) :
    (presentNext w s).cyc = s.cyc := rfl
@[simp] theorem presentNext_rt (w : CmdWord) (s : State) :
    (presentNext w s).rt = s.rt := rfl
@[simp] theorem presentNext_wt (w : CmdWord) (s : State) :
    (presentNext w s).wt = s.wt := rfl
@[simp] theorem presentNext_ea (w : CmdWord) (s : State) :
    (presentNext w s).ea = s.ea := rfl
@[simp] theorem presentNext_lr (w : CmdWord) (s : State) :
    (presentNext w s).lr = s.lr := rfl
@[simp] theorem presentNext_fault (w : CmdWord) (s : State) :
    (presentNext w s).fault = s.fault := rfl
@[simp] theorem presentNext_rsp (w : CmdWord) (s : State) :
    (presentNext w s).rsp = s.rsp := rfl
@[simp] theorem presentNext_bus (w : CmdWord) (s : State) :
    (presentNext w s).bus = s.bus := rfl
@[simp] theorem presentNext_inputs (w : CmdWord) (s : State) :
    (presentNext w s).inputs = .command w :: s.inputs := rfl
@[simp] theorem presentNext_answers (w : CmdWord) (s : State) :
    (presentNext w s).answers = s.answers := rfl
@[simp] theorem presentNext_draws (w : CmdWord) (s : State) :
    (presentNext w s).draws = s.draws := rfl

@[simp] theorem busRead_answer (h : HandlerId) (b : Word) (s : State) :
    (busRead h b s).1 = answerAt s 0 := rfl

/-! ### penalty, memWrite: what they leave alone -/

@[simp] theorem penalty_pc (w : Word) (i : Byte) (p : Bool) (s : State) :
    (penalty w i p s).pc = s.pc := by unfold penalty; split <;> rfl
@[simp] theorem penalty_a (w : Word) (i : Byte) (p : Bool) (s : State) :
    (penalty w i p s).a = s.a := by unfold penalty; split <;> rfl
@[simp] theorem penalty_x (w : Word) (i : Byte) (p : Bool) (s : State) :
    (penalty w i p s).x = s.x := by unfold penalty; split <;> rfl
@[simp] theorem penalty_y (w : Word) (i : Byte) (p : Bool) (s : State) :
    (penalty w i p s).y = s.y := by unfold penalty; split <;> rfl
@[simp] theorem penalty_sp (w : Word) (i : Byte) (p : Bool) (s : State) :
    (penalty w i p s).sp = s.sp := by unfold penalty; split <;> rfl
@[simp] theorem penalty_rt (w : Word) (i : Byte) (p : Bool) (s : State) :
    (penalty w i p s).rt = s.rt := by unfold penalty; split <;> rfl
@[simp] theorem penalty_wt (w : Word) (i : Byte) (p : Bool) (s : State) :
    (penalty w i p s).wt = s.wt := by unfold penalty; split <;> rfl
@[simp] theorem penalty_ea (w : Word) (i : Byte) (p : Bool) (s : State) :
    (penalty w i p s).ea = s.ea := by unfold penalty; split <;> rfl
@[simp] theorem penalty_lr (w : Word) (i : Byte) (p : Bool) (s : State) :
    (penalty w i p s).lr = s.lr := by unfold penalty; split <;> rfl
@[simp] theorem penalty_fault (w : Word) (i : Byte) (p : Bool) (s : State) :
    (penalty w i p s).fault = s.fault := by unfold penalty; split <;> rfl
@[simp] theorem penalty_rsp (w : Word) (i : Byte) (p : Bool) (s : State) :
    (penalty w i p s).rsp = s.rsp := by unfold penalty; split <;> rfl
@[simp] theorem penalty_bus (w : Word) (i : Byte) (p : Bool) (s : State) :
    (penalty w i p s).bus = s.bus := by unfold penalty; split <;> rfl
@[simp] theorem penalty_inputs (w : Word) (i : Byte) (p : Bool) (s : State) :
    (penalty w i p s).inputs = s.inputs := by unfold penalty; split <;> rfl
@[simp] theorem penalty_answers (w : Word) (i : Byte) (p : Bool) (s : State) :
    (penalty w i p s).answers = s.answers := by unfold penalty; split <;> rfl
@[simp] theorem penalty_draws (w : Word) (i : Byte) (p : Bool) (s : State) :
    (penalty w i p s).draws = s.draws := by unfold penalty; split <;> rfl

@[simp] theorem memWrite_pc (b : RawAddr) (v : Byte) (s : State) :
    (memWrite b v s).pc = s.pc := by unfold memWrite; split <;> rfl
@[simp] theorem memWrite_a (b : RawAddr) (v : Byte) (s : State) :
    (memWrite b v s).a = s.a := by unfold memWrite; split <;> rfl
@[simp] theorem memWrite_x (b : RawAddr) (v : Byte) (s : State) :
    (memWrite b v s).x = s.x := by unfold memWrite; split <;> rfl
@[simp] theorem memWrite_y (b : RawAddr) (v : Byte) (s : State) :
    (memWrite b v s).y = s.y := by unfold memWrite; split <;> rfl
@[simp] theorem memWrite_sp (b : RawAddr) (v : Byte) (s : State) :
    (memWrite b v s).sp = s.sp := by unfold memWrite; split <;> rfl
@[simp] theorem memWrite_cyc (b : RawAddr) (v : Byte) (s : State) :
    (memWrite b v s).cyc = s.cyc := by unfold memWrite; split <;> rfl
@[simp] theorem memWrite_rt (b : RawAddr) (v : Byte) (s : State) :
    (memWrite b v s).rt = s.rt := by unfold memWrite; split <;> rfl
@[simp] theorem memWrite_wt (b : RawAddr) (v : Byte) (s : State) :
    (memWrite b v s).wt = s.wt := by unfold memWrite; split <;> rfl
@[simp] theorem memWrite_ea (b : RawAddr) (v : Byte) (s : State) :
    (memWrite b v s).ea = s.ea := by unfold memWrite; split <;> rfl
@[simp] theorem memWrite_lr (b : RawAddr) (v : Byte) (s : State) :
    (memWrite b v s).lr = s.lr := by unfold memWrite; split <;> rfl
@[simp] theorem memWrite_fault (b : RawAddr) (v : Byte) (s : State) :
    (memWrite b v s).fault = s.fault := by unfold memWrite; split <;> rfl
@[simp] theorem memWrite_rsp (b : RawAddr) (v : Byte) (s : State) :
    (memWrite b v s).rsp = s.rsp := by unfold memWrite; split <;> rfl
@[simp] theorem memWrite_inputs (b : RawAddr) (v : Byte) (s : State) :
    (memWrite b v s).inputs = s.inputs := by unfold memWrite; split <;> rfl
@[simp] theorem memWrite_answers (b : RawAddr) (v : Byte) (s : State) :
    (memWrite b v s).answers = s.answers := by unfold memWrite; split <;> rfl
@[simp] theorem memWrite_draws (b : RawAddr) (v : Byte) (s : State) :
    (memWrite b v s).draws = s.draws := by unfold memWrite; split <;> rfl

/-! ### pushByte: what it leaves alone -/

@[simp] theorem pushByte_sp (v : Byte) (s : State) : (pushByte v s).sp = s.sp - 1 := by
  simp [pushByte]
@[simp] theorem pushByte_pc (v : Byte) (s : State) : (pushByte v s).pc = s.pc := by
  simp [pushByte]
@[simp] theorem pushByte_a (v : Byte) (s : State) : (pushByte v s).a = s.a := by
  simp [pushByte]
@[simp] theorem pushByte_x (v : Byte) (s : State) : (pushByte v s).x = s.x := by
  simp [pushByte]
@[simp] theorem pushByte_y (v : Byte) (s : State) : (pushByte v s).y = s.y := by
  simp [pushByte]
@[simp] theorem pushByte_cyc (v : Byte) (s : State) : (pushByte v s).cyc = s.cyc := by
  simp [pushByte]
@[simp] theorem pushByte_rt (v : Byte) (s : State) : (pushByte v s).rt = s.rt := by
  simp [pushByte]
@[simp] theorem pushByte_wt (v : Byte) (s : State) : (pushByte v s).wt = s.wt := by
  simp [pushByte]
@[simp] theorem pushByte_ea (v : Byte) (s : State) : (pushByte v s).ea = s.ea := by
  simp [pushByte]
@[simp] theorem pushByte_lr (v : Byte) (s : State) : (pushByte v s).lr = s.lr := by
  simp [pushByte]
@[simp] theorem pushByte_fault (v : Byte) (s : State) : (pushByte v s).fault = s.fault := by
  simp [pushByte]
@[simp] theorem pushByte_rsp (v : Byte) (s : State) : (pushByte v s).rsp = s.rsp := by
  simp [pushByte]
@[simp] theorem pushByte_inputs (v : Byte) (s : State) : (pushByte v s).inputs = s.inputs := by
  simp [pushByte]
@[simp] theorem pushByte_answers (v : Byte) (s : State) : (pushByte v s).answers = s.answers := by
  simp [pushByte]
@[simp] theorem pushByte_draws (v : Byte) (s : State) : (pushByte v s).draws = s.draws := by
  simp [pushByte]

end Sys2Proof.Machine
end

