-- ==== Sys2Proof/Laws/Table.lean ====
section
/-! SUPPORT. Handler tables: what a slot holds after a range is bound, that binding keeps the
canonical form, and that two canonical tables with the same slots are the same table. -/

namespace Sys2Proof.Machine

@[simp] theorem Table.lookup_default (a : Word) : Table.default.lookup a = none := rfl

theorem Run.covers_iff (r : Run) (a : Nat) : r.covers a = true ↔ r.first ≤ a ∧ a ≤ r.last := by
  simp [Run.covers]

/-- The slot at a number, the form the proofs about runs use. -/
def Table.at (t : Table) (a : Nat) : Option HandlerId := (t.find? fun r => r.covers a).map Run.hid

theorem Table.lookup_eq_at (t : Table) (a : Word) : t.lookup a = t.at a.toNat := rfl

@[simp] theorem Table.at_nil (a : Nat) : Table.at [] a = none := rfl

theorem Table.at_cons (r : Run) (t : Table) (a : Nat) :
    Table.at (r :: t) a = if r.first ≤ a ∧ a ≤ r.last then some r.hid else Table.at t a := by
  by_cases h : r.first ≤ a ∧ a ≤ r.last
  · simp [Table.at, (Run.covers_iff r a).2 h, h]
  · have : r.covers a = false := by
      rw [← Bool.not_eq_true, Run.covers_iff]; exact h
    simp [Table.at, this, h]

theorem Table.at_append (t u : Table) (a : Nat) :
    Table.at (t ++ u) a = (Table.at t a).or (Table.at u a) := by
  induction t with
  | nil => simp
  | cons r t ih =>
    rw [List.cons_append, Table.at_cons, Table.at_cons, ih]
    split <;> simp

theorem Table.at_glue (r : Run) (t : Table) (a : Nat) :
    (Table.glue r t).at a = Table.at (r :: t) a := by
  unfold Table.glue
  split
  · rfl
  · rename_i q rest
    split
    · rename_i h
      obtain ⟨h1, h2⟩ := h
      rw [Table.at_cons, Table.at_cons, Table.at_cons]
      dsimp only
      by_cases hr : r.first ≤ a ∧ a ≤ r.last
      · rw [if_pos hr, if_pos (by omega)]
      · by_cases hq : q.first ≤ a ∧ a ≤ q.last
        · rw [if_neg hr, if_pos hq, if_pos (by omega), h2]
        · rw [if_neg hr, if_neg hq, if_neg (by omega)]
    · rfl

theorem Table.at_foldr_glue (t : Table) (a : Nat) : (t.foldr Table.glue []).at a = t.at a := by
  induction t with
  | nil => rfl
  | cons r t ih => rw [List.foldr_cons, Table.at_glue, Table.at_cons, Table.at_cons, ih]

theorem Table.at_below (lo : Nat) (t : Table) (a : Nat) :
    Table.at (t.filterMap (Run.below lo)) a = if a < lo then Table.at t a else none := by
  induction t with
  | nil => simp
  | cons r t ih =>
    rw [List.filterMap_cons, Table.at_cons]
    unfold Run.below at ih ⊢
    by_cases h : r.first < lo
    · simp only [h, if_true, Table.at_cons, ih]
      split_ifs <;> first | rfl | omega
    · simp only [h, if_false, ih]
      split_ifs <;> first | rfl | omega

theorem Table.at_above (hi : Nat) (t : Table) (a : Nat) :
    Table.at (t.filterMap (Run.above hi)) a = if hi < a then Table.at t a else none := by
  induction t with
  | nil => simp
  | cons r t ih =>
    rw [List.filterMap_cons, Table.at_cons]
    unfold Run.above at ih ⊢
    by_cases h : hi < r.last
    · simp only [h, if_true, Table.at_cons, ih]
      split_ifs <;> first | rfl | omega
    · simp only [h, if_false, ih]
      split_ifs <;> first | rfl | omega

theorem Table.at_bind (lo hi : Nat) (h : HandlerId) (t : Table) (hle : lo ≤ hi) (a : Nat) :
    (t.bind lo hi h).at a = if lo ≤ a ∧ a ≤ hi then some h else t.at a := by
  rw [Table.bind, Table.at_foldr_glue, Table.at_append, Table.at_cons, Table.at_below,
    Table.at_above]
  dsimp only
  split_ifs <;> first | omega | simp

/-- What a slot holds after an install: the new handler inside the range, what it held before
outside it; nothing changes where `start > stop` (R112, R113). -/
theorem Table.lookup_install (start stop : Word) (h : HandlerId) (t : Table) (a : Word) :
    (t.install start stop h).lookup a =
      if start.toNat ≤ a.toNat ∧ a.toNat ≤ stop.toNat then some h else t.lookup a := by
  unfold Table.install
  split
  · rename_i hle
    rw [Table.lookup_eq_at, Table.at_bind _ _ _ _ hle, Table.lookup_eq_at]
  · rw [if_neg (by omega)]

/-! ### The canonical form -/

theorem Run.ok_iff (r : Run) : r.ok = true ↔ r.first ≤ r.last ∧ r.last < 65536 := by simp [Run.ok]

theorem Run.apart_iff (r q : Run) : r.apart q = true ↔
    r.last + 1 < q.first ∨ (r.last + 1 = q.first ∧ r.hid ≠ q.hid) := by
  simp [Run.apart]

/-- Sound runs in rising order: the canonical form but for runs that could be one. -/
def Table.rising (t : Table) : Prop :=
  (∀ r ∈ t, r.ok = true) ∧ t.Pairwise fun r q => r.last < q.first

theorem Table.wf_cons_iff (r : Run) (t : Table) :
    Table.wf (r :: t) = true ↔
      r.ok = true ∧ (∀ q, t.head? = some q → r.apart q = true) ∧ Table.wf t = true := by
  cases t with
  | nil => simp [Table.wf]
  | cons q rest => simp [Table.wf, and_assoc]

theorem Table.wf_head_le (t : Table) : ∀ r, Table.wf (r :: t) = true → ∀ q ∈ t, r.last < q.first := by
  induction t with
  | nil => simp
  | cons p rest ih =>
    intro r h q hq
    obtain ⟨_, hap, hwf⟩ := (Table.wf_cons_iff r _).1 h
    have hap := (Run.apart_iff r p).1 (hap p rfl)
    have hp := (Run.ok_iff p).1 ((Table.wf_cons_iff p _).1 hwf).1
    rcases List.mem_cons.1 hq with rfl | hq
    · omega
    · have := ih p hwf q hq
      omega

theorem Table.wf_rising (t : Table) : t.wf = true → t.rising := by
  induction t with
  | nil => simp [Table.rising]
  | cons r t ih =>
    intro h
    obtain ⟨hok, _, hwf⟩ := (Table.wf_cons_iff r t).1 h
    obtain ⟨h1, h2⟩ := ih hwf
    exact ⟨fun q hq => (List.mem_cons.1 hq).elim (fun e => e ▸ hok) (h1 q),
      List.pairwise_cons.2 ⟨Table.wf_head_le t r h, h2⟩⟩

theorem Table.glue_wf (r : Run) (t : Table) (hr : r.ok = true) (ht : t.wf = true)
    (hlt : ∀ q ∈ t, r.last < q.first) : (Table.glue r t).wf = true := by
  unfold Table.glue
  split
  · exact hr
  · rename_i q rest
    have hq := (Table.wf_cons_iff q rest).1 ht
    have hrq := hlt q (by simp)
    have h1 := (Run.ok_iff r).1 hr
    have h2 := (Run.ok_iff q).1 hq.1
    split
    · rename_i h
      refine (Table.wf_cons_iff _ _).2 ⟨(Run.ok_iff _).2 (by dsimp only; omega), fun p hp => ?_, hq.2.2⟩
      have := (Run.apart_iff q p).1 (hq.2.1 p hp)
      refine (Run.apart_iff _ p).2 ?_
      dsimp only
      rw [h.2, Nat.max_eq_right (by omega)]
      exact this
    · rename_i h
      refine (Table.wf_cons_iff _ _).2 ⟨hr, fun p hp => ?_, ht⟩
      obtain rfl : q = p := by simpa using hp
      refine (Run.apart_iff r q).2 ?_
      by_cases e : r.last + 1 = q.first
      · exact .inr ⟨e, fun e' => h ⟨e, e'⟩⟩
      · exact .inl (by omega)

theorem Table.glue_first (r : Run) (t : Table) (n : Nat) (hr : n < r.first)
    (ht : ∀ q ∈ t, n < q.first) : ∀ q ∈ Table.glue r t, n < q.first := by
  intro q hq
  unfold Table.glue at hq
  split at hq
  · exact List.mem_singleton.1 hq ▸ hr
  · rename_i p rest
    have hp := ht p (by simp)
    split at hq
    · rcases List.mem_cons.1 hq with rfl | hq
      · dsimp only; omega
      · exact ht q (by simp [hq])
    · rcases List.mem_cons.1 hq with rfl | hq
      · exact hr
      · exact ht q hq

theorem Table.foldr_glue_first (t : Table) (n : Nat) :
    (∀ q ∈ t, n < q.first) → ∀ q ∈ t.foldr Table.glue [], n < q.first := by
  induction t with
  | nil => simp
  | cons r t ih =>
    intro h
    exact Table.glue_first r _ n (h r (by simp)) (ih fun q hq => h q (by simp [hq]))

theorem Table.foldr_glue_wf (t : Table) : t.rising → (t.foldr Table.glue []).wf = true := by
  induction t with
  | nil => intro _; rfl
  | cons r t ih =>
    rintro ⟨hok, hp⟩
    obtain ⟨hlt, hp⟩ := List.pairwise_cons.1 hp
    exact Table.glue_wf r _ (hok r (by simp)) (ih ⟨fun q hq => hok q (by simp [hq]), hp⟩)
      (Table.foldr_glue_first t r.last hlt)

theorem Table.below_mem {lo : Nat} {t : Table} {q : Run} (h : q ∈ t.filterMap (Run.below lo)) :
    ∃ r ∈ t, r.first < lo ∧ q = { r with last := min r.last (lo - 1) } := by
  obtain ⟨r, hr, e⟩ := List.mem_filterMap.1 h
  unfold Run.below at e
  split at e
  · rename_i hlt
    exact ⟨r, hr, hlt, (Option.some.inj e).symm⟩
  · exact absurd e (by simp)

theorem Table.above_mem {hi : Nat} {t : Table} {q : Run} (h : q ∈ t.filterMap (Run.above hi)) :
    ∃ r ∈ t, hi < r.last ∧ q = { r with first := max r.first (hi + 1) } := by
  obtain ⟨r, hr, e⟩ := List.mem_filterMap.1 h
  unfold Run.above at e
  split at e
  · rename_i hlt
    exact ⟨r, hr, hlt, (Option.some.inj e).symm⟩
  · exact absurd e (by simp)

theorem Table.below_rising (lo : Nat) (t : Table) : t.rising → Table.rising (t.filterMap (Run.below lo)) := by
  rintro ⟨hok, hp⟩
  refine ⟨fun q hq => ?_, ?_⟩
  · obtain ⟨r, hr, hlt, rfl⟩ := Table.below_mem hq
    have := (Run.ok_iff r).1 (hok r hr)
    exact (Run.ok_iff _).2 (by dsimp only; omega)
  · refine (hp.filterMap _ (S := fun (r q : Run) => r.last < q.first) ?_)
    intro r r' h q hq q' hq'
    unfold Run.below at hq hq'
    split at hq <;> simp at hq
    split at hq' <;> simp at hq'
    subst hq hq'
    dsimp only
    omega

theorem Table.above_rising (hi : Nat) (t : Table) : t.rising → Table.rising (t.filterMap (Run.above hi)) := by
  rintro ⟨hok, hp⟩
  refine ⟨fun q hq => ?_, ?_⟩
  · obtain ⟨r, hr, hlt, rfl⟩ := Table.above_mem hq
    have := (Run.ok_iff r).1 (hok r hr)
    exact (Run.ok_iff _).2 (by dsimp only; omega)
  · refine (hp.filterMap _ (S := fun (r q : Run) => r.last < q.first) ?_)
    intro r r' h q hq q' hq'
    unfold Run.above at hq hq'
    split at hq <;> simp at hq
    split at hq' <;> simp at hq'
    subst hq hq'
    dsimp only
    omega

/-- Binding a range keeps the canonical form. -/
theorem Table.bind_wf (lo hi : Nat) (h : HandlerId) (t : Table) (ht : t.wf = true) (hle : lo ≤ hi)
    (hhi : hi < 65536) : (t.bind lo hi h).wf = true := by
  refine Table.foldr_glue_wf _ ⟨fun q hq => ?_, ?_⟩
  · rcases List.mem_append.1 hq with hq | hq
    · exact (Table.below_rising lo t (Table.wf_rising t ht)).1 q hq
    · rcases List.mem_cons.1 hq with rfl | hq
      · exact (Run.ok_iff _).2 ⟨hle, hhi⟩
      · exact (Table.above_rising hi t (Table.wf_rising t ht)).1 q hq
  · refine List.pairwise_append.2 ⟨(Table.below_rising lo t (Table.wf_rising t ht)).2,
      List.pairwise_cons.2 ⟨fun q hq => ?_, (Table.above_rising hi t (Table.wf_rising t ht)).2⟩,
      fun q hq p hp => ?_⟩
    · obtain ⟨r, _, _, rfl⟩ := Table.above_mem hq
      dsimp only
      omega
    · obtain ⟨r, _, _, rfl⟩ := Table.below_mem hq
      rcases List.mem_cons.1 hp with rfl | hp
      · dsimp only; omega
      · obtain ⟨r', _, _, rfl⟩ := Table.above_mem hp
        dsimp only
        omega

theorem Table.default_wf : Table.default.wf = true := rfl

/-- An install keeps the canonical form. -/
theorem Table.install_wf (start stop : Word) (h : HandlerId) (t : Table) (ht : t.wf = true) :
    (t.install start stop h).wf = true := by
  unfold Table.install
  split
  · rename_i hle
    exact Table.bind_wf _ _ _ _ ht hle stop.isLt
  · exact ht

/-! ### Equal slots, equal tables -/

theorem Table.at_eq_none_of_lt (t : Table) (a : Nat) (h : ∀ q ∈ t, a < q.first) : t.at a = none := by
  induction t with
  | nil => rfl
  | cons r t ih =>
    have := h r (by simp)
    rw [Table.at_cons, if_neg (by omega), ih fun q hq => h q (by simp [hq])]

theorem Table.wf_tail_at (r : Run) (t : Table) (h : Table.wf (r :: t) = true) (a : Nat)
    (ha : a ≤ r.last) : t.at a = none :=
  Table.at_eq_none_of_lt t a fun q hq => by have := Table.wf_head_le t r h q hq; omega

/-- Just above a run of a canonical table, its handler is bound no more. -/
theorem Table.wf_at_succ (r : Run) (t : Table) (h : Table.wf (r :: t) = true) :
    Table.at (r :: t) (r.last + 1) ≠ some r.hid := by
  rw [Table.at_cons, if_neg (by omega)]
  cases t with
  | nil => simp
  | cons q rest =>
    have hap := (Run.apart_iff r q).1 (((Table.wf_cons_iff r _).1 h).2.1 q rfl)
    have hwf := ((Table.wf_cons_iff r _).1 h).2.2
    rw [Table.at_cons]
    rcases hap with hlt | ⟨he, hne⟩
    · rw [if_neg (by omega), Table.wf_tail_at q rest hwf _ (by
        have := (Run.ok_iff q).1 ((Table.wf_cons_iff q _).1 hwf).1; omega)]
      simp
    · split
      · simpa using fun e => hne e.symm
      · rw [Table.wf_tail_at q rest hwf _ (by
          have := (Run.ok_iff q).1 ((Table.wf_cons_iff q _).1 hwf).1; omega)]
        simp

theorem Table.wf_head_last_le (r q : Run) (t u : Table) (ht : Table.wf (r :: t) = true)
    (hu : Table.wf (q :: u) = true) (he : ∀ a, Table.at (r :: t) a = Table.at (q :: u) a)
    (hf : r.first = q.first) : r.hid = q.hid ∧ r.last ≤ q.last := by
  have hr := (Run.ok_iff r).1 ((Table.wf_cons_iff r _).1 ht).1
  have hq := (Run.ok_iff q).1 ((Table.wf_cons_iff q _).1 hu).1
  have hhid : r.hid = q.hid := by
    have := he r.first
    rw [Table.at_cons, Table.at_cons, if_pos (by omega), if_pos (by omega)] at this
    exact Option.some.inj this
  refine ⟨hhid, Nat.le_of_not_lt fun hlt => ?_⟩
  refine Table.wf_at_succ q u hu ?_
  rw [← he (q.last + 1), Table.at_cons, if_pos (by omega), hhid]

theorem Table.wf_head_first_le (r q : Run) (t u : Table) (ht : Table.wf (r :: t) = true)
    (hu : Table.wf (q :: u) = true) (he : ∀ a, Table.at (r :: t) a = Table.at (q :: u) a) :
    q.first ≤ r.first := by
  have hr := (Run.ok_iff r).1 ((Table.wf_cons_iff r _).1 ht).1
  have hq := (Run.ok_iff q).1 ((Table.wf_cons_iff q _).1 hu).1
  refine Nat.le_of_not_lt fun hlt => ?_
  have h1 := he r.first
  rw [Table.at_cons, if_pos (by omega), Table.at_eq_none_of_lt (q :: u) r.first] at h1
  · exact absurd h1 (by simp)
  · intro p hp
    rcases List.mem_cons.1 hp with rfl | hp
    · exact hlt
    · have := Table.wf_head_le u q hu p hp
      omega

/-- Two canonical tables whose slots hold the same bindings are the same table. -/
theorem Table.wf_ext (t : Table) : ∀ u : Table, t.wf = true → u.wf = true →
    (∀ a, t.at a = u.at a) → t = u := by
  induction t with
  | nil =>
    intro u _ hu he
    cases u with
    | nil => rfl
    | cons q u =>
      have hq := (Run.ok_iff q).1 ((Table.wf_cons_iff q _).1 hu).1
      have := he q.first
      rw [Table.at_cons, if_pos (by omega)] at this
      exact absurd this (by simp)
  | cons r t ih =>
    intro u ht hu he
    cases u with
    | nil =>
      have hr := (Run.ok_iff r).1 ((Table.wf_cons_iff r _).1 ht).1
      have := he r.first
      rw [Table.at_cons, if_pos (by omega)] at this
      exact absurd this (by simp)
    | cons q u =>
      have hf : r.first = q.first := Nat.le_antisymm
        (Table.wf_head_first_le q r u t hu ht fun a => (he a).symm)
        (Table.wf_head_first_le r q t u ht hu he)
      obtain ⟨hhid, h1⟩ := Table.wf_head_last_le r q t u ht hu he hf
      obtain ⟨_, h2⟩ := Table.wf_head_last_le q r u t hu ht (fun a => (he a).symm) hf.symm
      obtain rfl : r = q := by
        cases r; cases q; simp_all; omega
      refine congrArg _ (ih u ((Table.wf_cons_iff r _).1 ht).2.2 ((Table.wf_cons_iff r _).1 hu).2.2
        fun a => ?_)
      by_cases ha : a ≤ r.last
      · rw [Table.wf_tail_at r t ht a ha, Table.wf_tail_at r u hu a ha]
      · have := he a
        rwa [Table.at_cons, Table.at_cons, if_neg (by omega), if_neg (by omega)] at this

end Sys2Proof.Machine
end

