-- ==== Sys2Proof/Laws/Ops.lean ====
section
/-! SUPPORT. One lemma per shared operation, saying once everything it can do. -/

namespace Sys2Proof.Machine

/-! ### Sequencing -/

@[simp] theorem andThen_done {α β : Type} (v : α) (s : State) (k : α → State → Result β) :
    (Result.done v s).andThen k = k v s := rfl

@[simp] theorem andThen_raised {α β : Type} (f : Fault) (k : α → State → Result β) :
    (Result.raised f : Result α).andThen k = .raised f := rfl

theorem andThen_eq_done {α β : Type} {r : Result α} {k : α → State → Result β} {v : β} {t : State} :
    r.andThen k = .done v t ↔ ∃ w u, r = .done w u ∧ k w u = .done v t := by
  cases r <;> simp

theorem andThen_eq_raised {α β : Type} {r : Result α} {k : α → State → Result β} {f : Fault} :
    r.andThen k = .raised f ↔ r = .raised f ∨ ∃ w u, r = .done w u ∧ k w u = .raised f := by
  cases r <;> simp

/-! ### Answers -/

/-- The answers to come depend on nothing but the list of answers and the draw index. -/
theorem answerAt_congr {s t : State} (ha : s.answers = t.answers) (hd : s.draws = t.draws)
    (k : Nat) : answerAt s k = answerAt t k := by
  simp only [answerAt, ha, hd]

theorem answerAt_skipAnswers (s : State) (j k : Nat) :
    answerAt (skipAnswers s j) k = answerAt s (j + k) := by
  simp only [answerAt, skipAnswers_answers, skipAnswers_draws, List.getElem?_drop,
    List.length_drop]
  cases h : s.answers[j + k]? with
  | some b => rfl
  | none =>
    have := List.getElem?_eq_none_iff.1 h
    simp only
    congr 1
    omega

/-- After one bus read the next answers are the later ones. -/
@[simp] theorem answerAt_busRead (h : HandlerId) (b : Word) (s : State) (k : Nat) :
    answerAt (busRead h b s).2 k = answerAt s (k + 1) := by
  rw [Nat.add_comm, ← answerAt_skipAnswers]
  exact answerAt_congr rfl rfl k

theorem skipAnswers_add (s : State) (j k : Nat) :
    skipAnswers (skipAnswers s j) k = skipAnswers s (j + k) := by
  simp only [skipAnswers, List.drop_drop, List.length_drop]
  congr 1
  omega

/-! ### The dispatcher -/

theorem memRead_mapped {addr : RawAddr} {s : State} {h : HandlerId}
    (hm : s.rt.lookup (maskAddr addr) = some h) :
    memRead addr s = .done (answerAt s 0) (busRead h (maskAddr addr) s).2 := by
  simp [memRead, hm]

theorem memRead_unmapped {addr : RawAddr} {s : State} (hm : s.rt.lookup (maskAddr addr) = none) :
    memRead addr s = .raised (raiseUnmappedRead (maskAddr addr) s) := by
  simp [memRead, hm]

/-- All a dispatcher read that answers can do. -/
theorem memRead_eq_done {addr : RawAddr} {s t : State} {v : Byte} (h : memRead addr s = .done v t) :
    ∃ hid, s.rt.lookup (maskAddr addr) = some hid ∧ v = answerAt s 0 ∧
      t = (busRead hid (maskAddr addr) s).2 := by
  unfold memRead at h
  split at h
  · cases h
  · rename_i hid hm
    injection h with h1 h2
    exact ⟨hid, hm, h1.symm, h2.symm⟩

/-- All a dispatcher read that faults can do. -/
theorem memRead_eq_raised {addr : RawAddr} {s : State} {f : Fault}
    (h : memRead addr s = .raised f) :
    s.rt.lookup (maskAddr addr) = none ∧ f = raiseUnmappedRead (maskAddr addr) s := by
  unfold memRead at h
  split at h
  · rename_i hm
    injection h with h
    exact ⟨hm, h.symm⟩
  · cases h

/-- All a dispatcher write can do: nothing, or one event. -/
theorem memWrite_cases (addr : RawAddr) (v : Byte) (s : State) :
    (s.wt.lookup (maskAddr addr) = none ∧ memWrite addr v s = s) ∨
    ∃ h, s.wt.lookup (maskAddr addr) = some h ∧
      memWrite addr v s = busWrite h (maskAddr addr) v s := by
  unfold memWrite
  split
  · exact .inl ⟨‹_›, rfl⟩
  · rename_i h hm
    exact .inr ⟨h, hm, rfl⟩

end Sys2Proof.Machine
end

