-- ==== Sys2Proof/Laws/Operands.lean ====
section
/-! SUPPORT. What the resolver, the accessor's and the stack unit's shared operations can do, said
once each: when such an operation answers, and when it faults. -/

namespace Sys2Proof.Machine

/-! ### Masked addresses -/

theorem maskAddr_of (addr : RawAddr) (a : Word) (h : a.toNat = addr.toNat % 65536) :
    maskAddr addr = a := by
  apply BitVec.eq_of_toNat_eq
  simp [maskAddr, h]

@[simp] theorem maskAddr_word (a : Word) : maskAddr (a.setWidth 32) = a :=
  maskAddr_of _ _ (by simp; omega)

@[simp] theorem maskAddr_byte (p : Byte) : maskAddr (p.setWidth 32) = p.setWidth 16 :=
  maskAddr_of _ _ (by simp)

theorem maskAddr_ea (e : EffAddr) (a : Word) (h : a.toNat = e.toNat % 65536) :
    maskAddr (e.setWidth 32) = a :=
  maskAddr_of _ _ (by simp; omega)

/-! ### Reads -/

/-- Every event is a read that went to the handler its address is bound to. -/
def boundReads (s : State) (events : List BusEvent) : Prop :=
  ∀ x ∈ events, ∃ h a v, x = .read h a v ∧ s.rt.lookup a = some h

theorem boundReads_nil (s : State) : boundReads s [] := by simp [boundReads]

theorem boundReads_append {s : State} {xs ys : List BusEvent} (hx : boundReads s xs)
    (hy : boundReads s ys) : boundReads s (xs ++ ys) := by
  intro x h
  rcases List.mem_append.1 h with h | h
  · exact hx x h
  · exact hy x h

/-- `t` is `s` after some reads that were answered: bus events added, answers taken, and perhaps the
registers `PC`, `CYC`, `SP`, the memo and the last-read value set; nothing else. -/
structure AfterReads (s t : State) (events : List BusEvent) (n : Nat) : Prop where
  bound : boundReads s events
  a : t.a = s.a
  x : t.x = s.x
  y : t.y = s.y
  rt : t.rt = s.rt
  wt : t.wt = s.wt
  fault : t.fault = s.fault
  rsp : t.rsp = s.rsp
  bus : t.bus = s.bus ++ events
  inputs : t.inputs = s.inputs
  answers : t.answers = s.answers.drop n
  draws : t.draws = s.draws + (n - s.answers.length)

theorem AfterReads.refl (s : State) : AfterReads s s [] 0 := by
  constructor <;> simp [boundReads_nil]

theorem AfterReads.trans {s t u : State} {xs ys : List BusEvent} {n m : Nat}
    (h : AfterReads s t xs n) (k : AfterReads t u ys m) : AfterReads s u (xs ++ ys) (n + m) where
  bound := boundReads_append h.bound (by simpa [boundReads, h.rt] using k.bound)
  a := k.a.trans h.a
  x := k.x.trans h.x
  y := k.y.trans h.y
  rt := k.rt.trans h.rt
  wt := k.wt.trans h.wt
  fault := k.fault.trans h.fault
  rsp := k.rsp.trans h.rsp
  bus := by rw [k.bus, h.bus, List.append_assoc]
  inputs := k.inputs.trans h.inputs
  answers := by rw [k.answers, h.answers, List.drop_drop]
  draws := by rw [k.draws, h.draws, h.answers, List.length_drop]; omega

/-- A dispatcher read that answers makes one event and takes one answer. -/
theorem memRead_afterReads {addr : RawAddr} {s t : State} {v : Byte}
    (h : memRead addr s = .done v t) :
    ∃ hid, AfterReads s t [.read hid (maskAddr addr) v] 1 ∧ v = answerAt s 0 ∧
      t.pc = s.pc ∧ t.cyc = s.cyc ∧ t.sp = s.sp ∧ t.ea = s.ea ∧ t.lr = s.lr := by
  obtain ⟨hid, hm, rfl, rfl⟩ := memRead_eq_done h
  refine ⟨hid, ?_, rfl, rfl, rfl, rfl, rfl, rfl⟩
  constructor <;> simp [boundReads, hm]

/-- `NextByte` that answers (R132). -/
theorem nextByte_done {s t : State} {v : Byte} (h : nextByte s = .done v t) :
    ∃ hid, AfterReads s t [.read hid s.pc v] 1 ∧ v = answerAt s 0 ∧
      t.pc = s.pc + 1 ∧ t.cyc = s.cyc ∧ t.sp = s.sp ∧ t.ea = s.ea ∧ t.lr = s.lr := by
  obtain ⟨w, u, h1, h2⟩ := andThen_eq_done.1 h
  injection h2 with h2 h3
  subst h2 h3
  obtain ⟨hid, hr, hv, h1, h2, h3, h4, h5⟩ := memRead_afterReads h1
  rw [maskAddr_word] at hr
  exact ⟨hid, ⟨hr.bound, hr.a, hr.x, hr.y, hr.rt, hr.wt, hr.fault, hr.rsp, hr.bus, hr.inputs,
    hr.answers, hr.draws⟩, hv, by simp [h1], h2, h3, h4, h5⟩

/-- `NextWord` that answers (R134). -/
theorem nextWord_done {s t : State} {w : Word} (h : nextWord s = .done w t) :
    ∃ h0 h1, AfterReads s t [.read h0 s.pc (answerAt s 0), .read h1 (s.pc + 1) (answerAt s 1)] 2 ∧
      w = cat (answerAt s 1) (answerAt s 0) ∧
      t.pc = s.pc + 2 ∧ t.cyc = s.cyc ∧ t.sp = s.sp ∧ t.ea = s.ea ∧ t.lr = s.lr := by
  obtain ⟨b0, u, e0, h⟩ := andThen_eq_done.1 h
  obtain ⟨b1, v, e1, h⟩ := andThen_eq_done.1 h
  injection h with h2 h3
  subst h2 h3
  obtain ⟨i0, r0, rfl, p0, c0, q0, m0, l0⟩ := nextByte_done e0
  obtain ⟨i1, r1, rfl, p1, c1, q1, m1, l1⟩ := nextByte_done e1
  have ha : answerAt u 0 = answerAt s 1 := by
    rw [show (1 : Nat) = 1 + 0 from rfl, ← answerAt_skipAnswers]
    exact answerAt_congr r0.answers r0.draws 0
  rw [ha, p0] at r1
  refine ⟨i0, i1, r0.trans r1, by rw [ha], ?_, c1.trans c0, q1.trans q0, m1.trans m0, l1.trans l0⟩
  rw [p1, p0, BitVec.add_assoc]
  rfl

/-- A pointer that is read whole (R142, R143). -/
theorem readPointer_done {p : Byte} {s t : State} {w : Word} (h : readPointer p s = .done w t) :
    ∃ h0 h1, AfterReads s t [.read h0 (p.setWidth 16) (answerAt s 0),
        .read h1 ((inc8 p).setWidth 16) (answerAt s 1)] 2 ∧
      w = cat (answerAt s 1) (answerAt s 0) ∧
      t.pc = s.pc ∧ t.cyc = s.cyc ∧ t.sp = s.sp ∧ t.ea = s.ea ∧ t.lr = s.lr := by
  obtain ⟨b0, u, e0, h⟩ := andThen_eq_done.1 h
  obtain ⟨b1, v, e1, h⟩ := andThen_eq_done.1 h
  injection h with h2 h3
  subst h2 h3
  obtain ⟨i0, r0, rfl, p0, c0, q0, m0, l0⟩ := memRead_afterReads e0
  obtain ⟨i1, r1, rfl, p1, c1, q1, m1, l1⟩ := memRead_afterReads e1
  have ha : answerAt u 0 = answerAt s 1 := by
    rw [show (1 : Nat) = 1 + 0 from rfl, ← answerAt_skipAnswers]
    exact answerAt_congr r0.answers r0.draws 0
  rw [maskAddr_byte] at r0 r1
  rw [ha] at r1
  exact ⟨i0, i1, r0.trans r1, by rw [ha], p1.trans p0, c1.trans c0, q1.trans q0, m1.trans m0,
    l1.trans l0⟩

/-! ### Reads one after the other, forwards -/

/-- `s` after `n` answered reads with these events, `PC` at `p`. -/
def reading (s : State) (n : Nat) (p : Word) (events : List BusEvent) : State :=
  { skipAnswers s n with pc := p, bus := s.bus ++ events }

theorem reading_zero (s : State) : reading s 0 s.pc [] = s := by
  apply State.ext <;> simp [reading]

theorem memRead_reading {s : State} {a : Word} {h : HandlerId} (n : Nat) (p : Word)
    (events : List BusEvent) (addr : RawAddr) (hm : s.rt.lookup a = some h)
    (ha : maskAddr addr = a) :
    memRead addr (reading s n p events) =
      .done (answerAt s n) (reading s (n + 1) p (events ++ [.read h a (answerAt s n)])) := by
  have h0 : answerAt (reading s n p events) 0 = answerAt s n := by
    have := answerAt_skipAnswers s n 0
    rw [Nat.add_zero] at this
    rw [← this]
    exact answerAt_congr rfl rfl 0
  rw [memRead_mapped (h := h) (by rw [ha]; exact hm), h0]
  simp only [busRead, h0, ha]
  congr 1
  apply State.ext <;> simp [reading]
  omega

theorem memRead_reading_unmapped {s : State} {a : Word} (n : Nat) (p : Word)
    (events : List BusEvent) (addr : RawAddr) (hm : s.rt.lookup a = none)
    (ha : maskAddr addr = a) :
    memRead addr (reading s n p events) =
      .raised (.unmappedRead a
        (faulted 1 a { skipAnswers s n with bus := s.bus ++ events })) := by
  rw [memRead_unmapped (by rw [ha]; exact hm), ha]
  rfl

theorem nextByte_reading {s : State} {p : Word} {h : HandlerId} (n : Nat)
    (events : List BusEvent) (hm : s.rt.lookup p = some h) :
    nextByte (reading s n p events) =
      .done (answerAt s n)
        (reading s (n + 1) (p + 1#16) (events ++ [.read h p (answerAt s n)])) := by
  unfold nextByte
  rw [memRead_reading n p events _ hm (by simp [reading])]
  rfl

theorem nextByte_reading_unmapped {s : State} {p : Word} (n : Nat)
    (events : List BusEvent) (hm : s.rt.lookup p = none) :
    nextByte (reading s n p events) =
      .raised (.unmappedRead p
        (faulted 1 p { skipAnswers s n with bus := s.bus ++ events })) := by
  unfold nextByte
  rw [memRead_reading_unmapped n p events _ hm (by simp [reading])]
  rfl

/-! ### Reads that fault -/

/-- `f` is the fault of a read at a default slot, after some reads that were answered (R200, R202). -/
def raisedByRead (s : State) (f : Fault) : Prop :=
  ∃ u events n a, AfterReads s u events n ∧ s.rt.lookup a = none ∧ f = raiseUnmappedRead a u

theorem memRead_raised {addr : RawAddr} {s : State} {f : Fault} (h : memRead addr s = .raised f) :
    raisedByRead s f :=
  ⟨s, [], 0, _, AfterReads.refl s, (memRead_eq_raised h).1, (memRead_eq_raised h).2⟩

theorem raisedByRead.after {s t : State} {events : List BusEvent} {n : Nat} {f : Fault}
    (ht : AfterReads s t events n) (h : raisedByRead t f) : raisedByRead s f := by
  obtain ⟨u, xs, m, a, hu, ha, rfl⟩ := h
  exact ⟨u, _, _, a, ht.trans hu, ht.rt ▸ ha, rfl⟩

theorem nextByte_raised {s : State} {f : Fault} (h : nextByte s = .raised f) : raisedByRead s f := by
  rcases andThen_eq_raised.1 h with h | ⟨_, _, _, h⟩
  · exact memRead_raised h
  · cases h

theorem nextWord_raised {s : State} {f : Fault} (h : nextWord s = .raised f) : raisedByRead s f := by
  rcases andThen_eq_raised.1 h with h | ⟨_, _, h0, h⟩
  · exact nextByte_raised h
  obtain ⟨_, r0, _⟩ := nextByte_done h0
  rcases andThen_eq_raised.1 h with h | ⟨_, _, _, h⟩
  · exact (nextByte_raised h).after r0
  · cases h

theorem readPointer_raised {p : Byte} {s : State} {f : Fault} (h : readPointer p s = .raised f) :
    raisedByRead s f := by
  rcases andThen_eq_raised.1 h with h | ⟨_, _, h0, h⟩
  · exact memRead_raised h
  obtain ⟨_, r0, _⟩ := memRead_afterReads h0
  rcases andThen_eq_raised.1 h with h | ⟨_, _, _, h⟩
  · exact (memRead_raised h).after r0
  · cases h

/-! ### resolve -/

theorem penalty_cases (w : Word) (i : Byte) (pbp : Bool) (s : State) :
    penalty w i pbp s = s ∨ (pbp = true ∧ penalty w i pbp s = { s with cyc := s.cyc + 1 }) := by
  unfold penalty
  cases pbp
  · exact .inl rfl
  · cases cross w i
    · exact .inl rfl
    · exact .inr ⟨rfl, rfl⟩

/-- The bounds of an address `resolve` can give in a mode (R60, R131). -/
def Mode.bounds (m : Mode) (e : EffAddr) : Prop :=
  e.toNat ≤ 0x100FE ∧
  ((m = .zeroPage ∨ m = .zeroPageX ∨ m = .zeroPageY) → e.toNat < 256) ∧
  (m ≠ .absoluteX → m ≠ .absoluteY → e.toNat < 65536)

/-- All `resolve` can do when it answers. -/
structure Resolved (d : Descriptor) (s t : State) (e : EffAddr) : Prop where
  mode : d.mode.resolvable = true
  reads : ∃ events n, AfterReads s t events n
  pc : t.pc = s.pc + BitVec.ofNat 16 d.mode.pcAdvance
  cyc : t.cyc = s.cyc ∨ (t.cyc = s.cyc + 1 ∧ d.pbp = true ∧
    (d.mode = .absoluteX ∨ d.mode = .absoluteY ∨ d.mode = .indirectY))
  sp : t.sp = s.sp
  ea : t.ea = s.ea
  lr : t.lr = s.lr
  bounds : Mode.bounds d.mode e

theorem Resolved.penalty {d : Descriptor} {s t : State} {e : EffAddr} (w : Word) (i : Byte)
    (h : Resolved d s t e) (hc : t.cyc = s.cyc)
    (hm : d.mode = .absoluteX ∨ d.mode = .absoluteY ∨ d.mode = .indirectY) :
    Resolved d s (Machine.penalty w i d.pbp t) e := by
  rcases penalty_cases w i d.pbp t with e1 | ⟨hp, e1⟩
  · rwa [e1]
  · rw [e1]
    obtain ⟨events, n, hr⟩ := h.reads
    exact ⟨h.mode, ⟨events, n, ⟨hr.bound, hr.a, hr.x, hr.y, hr.rt, hr.wt, hr.fault, hr.rsp, hr.bus,
      hr.inputs, hr.answers, hr.draws⟩⟩, h.pc, .inr ⟨by simp [hc], hp, hm⟩, h.sp, h.ea, h.lr,
      h.bounds⟩

theorem resolve_done {d : Descriptor} {s t : State} {e : EffAddr} (h : resolve d s = .done e t) :
    Resolved d s t e := by
  obtain ⟨m, pbp, rmw⟩ := d
  cases m with
  | none => cases h
  | direct => cases h
  | outside c => cases h
  | immediate =>
    injection h with h1 h2
    subst h1 h2
    refine ⟨rfl, ⟨[], 0, ?_⟩, rfl, .inl rfl, rfl, rfl, rfl, ?_⟩
    · constructor <;> simp [boundReads_nil]
    · have := s.pc.isLt
      simp [Mode.bounds]
      omega
  | zeroPage =>
    obtain ⟨b, u, h1, h2⟩ := andThen_eq_done.1 h
    injection h2 with h2 h3
    subst h2 h3
    obtain ⟨_, hr, -, h1, h2, h3, h4, h5⟩ := nextByte_done h1
    refine ⟨rfl, ⟨_, _, hr⟩, h1, .inl h2, h3, h4, h5, ?_⟩
    have := b.isLt
    simp [Mode.bounds, zext]
    omega
  | zeroPageX =>
    obtain ⟨b, u, h1, h2⟩ := andThen_eq_done.1 h
    injection h2 with h2 h3
    subst h2 h3
    obtain ⟨_, hr, -, h1, h2, h3, h4, h5⟩ := nextByte_done h1
    refine ⟨rfl, ⟨_, _, hr⟩, h1, .inl h2, h3, h4, h5, ?_⟩
    simp [Mode.bounds, zext, add8]
    omega
  | zeroPageY =>
    obtain ⟨b, u, h1, h2⟩ := andThen_eq_done.1 h
    injection h2 with h2 h3
    subst h2 h3
    obtain ⟨_, hr, -, h1, h2, h3, h4, h5⟩ := nextByte_done h1
    refine ⟨rfl, ⟨_, _, hr⟩, h1, .inl h2, h3, h4, h5, ?_⟩
    simp [Mode.bounds, zext, add8]
    omega
  | absolute =>
    obtain ⟨w, u, h1, h2⟩ := andThen_eq_done.1 h
    injection h2 with h2 h3
    subst h2 h3
    obtain ⟨_, _, hr, -, h1, h2, h3, h4, h5⟩ := nextWord_done h1
    refine ⟨rfl, ⟨_, _, hr⟩, h1, .inl h2, h3, h4, h5, ?_⟩
    have := w.isLt
    simp [Mode.bounds]
    omega
  | absoluteX =>
    obtain ⟨w, u, h1, h2⟩ := andThen_eq_done.1 h
    injection h2 with h2 h3
    subst h2 h3
    obtain ⟨_, _, hr, -, h1, h2, h3, h4, h5⟩ := nextWord_done h1
    refine Resolved.penalty (d := ⟨.absoluteX, pbp, rmw⟩) w u.x
      ⟨rfl, ⟨_, _, hr⟩, h1, .inl h2, h3, h4, h5, ?_⟩ h2 (by simp)
    have := w.isLt
    have := u.x.isLt
    simp [Mode.bounds, add17]
    omega
  | absoluteY =>
    obtain ⟨w, u, h1, h2⟩ := andThen_eq_done.1 h
    injection h2 with h2 h3
    subst h2 h3
    obtain ⟨_, _, hr, -, h1, h2, h3, h4, h5⟩ := nextWord_done h1
    refine Resolved.penalty (d := ⟨.absoluteY, pbp, rmw⟩) w u.y
      ⟨rfl, ⟨_, _, hr⟩, h1, .inl h2, h3, h4, h5, ?_⟩ h2 (by simp)
    have := w.isLt
    have := u.y.isLt
    simp [Mode.bounds, add17]
    omega
  | indirectX =>
    obtain ⟨b, u, h1, h2⟩ := andThen_eq_done.1 h
    obtain ⟨w, v, hp, h3⟩ := andThen_eq_done.1 h2
    injection h3 with h3 h4
    subst h3 h4
    obtain ⟨_, hr, -, h1, h2', h3, h4, h5⟩ := nextByte_done h1
    obtain ⟨_, _, kr, -, k1, k2, k3, k4, k5⟩ := readPointer_done hp
    refine ⟨rfl, ⟨_, _, hr.trans kr⟩, k1.trans h1, .inl (k2.trans h2'), k3.trans h3, k4.trans h4,
      k5.trans h5, ?_⟩
    have := w.isLt
    simp [Mode.bounds]
    omega
  | indirectY =>
    obtain ⟨b, u, h1, h2⟩ := andThen_eq_done.1 h
    obtain ⟨w, v, hp, h3⟩ := andThen_eq_done.1 h2
    injection h3 with h3 h4
    subst h3 h4
    obtain ⟨_, hr, -, h1, h2', h3, h4, h5⟩ := nextByte_done h1
    obtain ⟨_, _, kr, -, k1, k2, k3, k4, k5⟩ := readPointer_done hp
    refine Resolved.penalty (d := ⟨.indirectY, pbp, rmw⟩) w v.y
      ⟨rfl, ⟨_, _, hr.trans kr⟩, k1.trans h1, .inl (k2.trans h2'), k3.trans h3, k4.trans h4,
      k5.trans h5, ?_⟩ (k2.trans h2') (by simp)
    simp [Mode.bounds, add16]
    omega

/-- All `resolve` can do when it faults: a read of a default slot, or a mode without a rule. -/
theorem resolve_raised {d : Descriptor} {s : State} {f : Fault} (h : resolve d s = .raised f) :
    (d.mode.resolvable = true ∧ raisedByRead s f) ∨
    (d.mode.resolvable = false ∧ f = raiseUnimplementedMode d.mode.code s) := by
  obtain ⟨m, pbp, rmw⟩ := d
  cases m with
  | none | direct | outside c => injection h with h; exact .inr ⟨rfl, h.symm⟩
  | immediate => cases h
  | zeroPage | zeroPageX | zeroPageY =>
    rcases andThen_eq_raised.1 h with h | ⟨_, _, _, h⟩
    · exact .inl ⟨rfl, nextByte_raised h⟩
    · cases h
  | absolute | absoluteX | absoluteY =>
    rcases andThen_eq_raised.1 h with h | ⟨_, _, _, h⟩
    · exact .inl ⟨rfl, nextWord_raised h⟩
    · cases h
  | indirectX | indirectY =>
    rcases andThen_eq_raised.1 h with h | ⟨_, _, h0, h⟩
    · exact .inl ⟨rfl, nextByte_raised h⟩
    obtain ⟨_, r0, _⟩ := nextByte_done h0
    rcases andThen_eq_raised.1 h with h | ⟨_, _, _, h⟩
    · exact .inl ⟨rfl, (readPointer_raised h).after r0⟩
    · cases h

/-! ### The effective address -/

/-- All `effectiveAddress` can do when it answers: the memo, or one `resolve` and its memo. -/
theorem effectiveAddress_done {d : Descriptor} {s t : State} {e : EffAddr}
    (h : effectiveAddress d s = .done e t) :
    (s.ea = some e ∧ t = s) ∨
    (s.ea = none ∧ ∃ u, resolve d s = .done e u ∧ t = { u with ea := some e }) := by
  unfold effectiveAddress at h
  split at h
  · rename_i e' he
    injection h with h1 h2
    exact .inl ⟨h1 ▸ he, h2.symm⟩
  · rename_i he
    obtain ⟨e', u, h1, h2⟩ := andThen_eq_done.1 h
    injection h2 with h2 h3
    subst h2
    exact .inr ⟨he, u, h1, h3.symm⟩

theorem effectiveAddress_raised {d : Descriptor} {s : State} {f : Fault}
    (h : effectiveAddress d s = .raised f) : s.ea = none ∧ resolve d s = .raised f := by
  unfold effectiveAddress at h
  split at h
  · cases h
  · rename_i he
    rcases andThen_eq_raised.1 h with h | ⟨_, _, _, h⟩
    · exact ⟨he, h⟩
    · cases h

/-! ### The store -/

/-- Every event of a dispatcher write goes to the handler its address is bound to. -/
theorem memWrite_eq (addr : RawAddr) (v : Byte) (s : State) :
    memWrite addr v s = { s with bus := s.bus ++ writeEvents s (maskAddr addr) v } := by
  unfold memWrite
  split
  · rename_i hm
    simp [writeEvents, hm]
  · rename_i hid hm
    simp [writeEvents, hm, busWrite]

theorem mem_writeEvents {s : State} {a : Word} {v : Byte} {x : BusEvent}
    (h : x ∈ writeEvents s a v) : ∃ hid, x = .write hid a v ∧ s.wt.lookup a = some hid := by
  unfold writeEvents at h
  split at h
  · rename_i hid hm
    exact ⟨hid, List.mem_singleton.1 h, hm⟩
  · cases h

/-- All a store can do: bus writes at the effective address, and one free value drawn where a
read-modify-write store has no last-read value. -/
theorem storeOperand_eq (rmw : Bool) (v : Byte) (e : EffAddr) (s : State) :
    ∃ events, (∀ x ∈ events, ∃ hid b, x = .write hid (maskAddr (e.setWidth 32)) b ∧
        s.wt.lookup (maskAddr (e.setWidth 32)) = some hid) ∧
      storeOperand rmw v e s = { s with
        bus := s.bus ++ events
        draws := s.draws + if rmw = true ∧ s.lr = none then 1 else 0 } := by
  unfold storeOperand dummyWrite
  simp only [memWrite_eq]
  cases rmw with
  | false =>
    exact ⟨_, fun x h => let ⟨hid, h⟩ := mem_writeEvents h; ⟨hid, v, h⟩, by simp⟩
  | true =>
    cases hl : s.lr with
    | none =>
      refine ⟨writeEvents s (maskAddr (e.setWidth 32)) (anyByte s) ++
        writeEvents s (maskAddr (e.setWidth 32)) v, fun x h => ?_, by simp [skipDraw, writeEvents, hl]⟩
      rcases List.mem_append.1 h with h | h
      · obtain ⟨hid, h⟩ := mem_writeEvents h; exact ⟨hid, _, h⟩
      · obtain ⟨hid, h⟩ := mem_writeEvents h; exact ⟨hid, _, h⟩
    | some b =>
      refine ⟨writeEvents s (maskAddr (e.setWidth 32)) b ++
        writeEvents s (maskAddr (e.setWidth 32)) v, fun x h => ?_, by simp [writeEvents]⟩
      rcases List.mem_append.1 h with h | h
      · obtain ⟨hid, h⟩ := mem_writeEvents h; exact ⟨hid, _, h⟩
      · obtain ⟨hid, h⟩ := mem_writeEvents h; exact ⟨hid, _, h⟩

/-! ### The stack unit -/

theorem maskAddr_stack (sp : Byte) (a : Word) (h : a.toNat = 0x100 + sp.toNat) :
    maskAddr (stackAddr sp) = a := by
  refine maskAddr_of _ _ ?_
  have := sp.isLt
  simp [stackAddr]
  omega

theorem pushByte_eq (v : Byte) (s : State) :
    pushByte v s = { s with
      bus := s.bus ++ writeEvents s (maskAddr (stackAddr s.sp)) v
      sp := s.sp - 1#8 } := by
  simp [pushByte, memWrite_eq]

/-- All a byte pop can do when it answers. -/
theorem popByte_done {s t : State} {v : Byte} (h : popByte s = .done v t) :
    ∃ hid, AfterReads s t [.read hid (maskAddr (stackAddr (s.sp + 1#8))) v] 1 ∧
      v = answerAt s 0 ∧ t.sp = s.sp + 1#8 ∧
      t.pc = s.pc ∧ t.cyc = s.cyc ∧ t.ea = s.ea ∧ t.lr = s.lr := by
  obtain ⟨hid, hr, hv, h1, h2, h3, h4, h5⟩ := memRead_afterReads h
  exact ⟨hid, ⟨hr.bound, hr.a, hr.x, hr.y, hr.rt, hr.wt, hr.fault, hr.rsp, hr.bus, hr.inputs,
    hr.answers, hr.draws⟩, hv, h3, h1, h2, h4, h5⟩

end Sys2Proof.Machine
end

