-- ==== Sys2Proof/Laws/Commands.lean ====
section
/-! SUPPORT. What an operand command, a command that faults and a step can do, said once each. -/

namespace Sys2Proof.Machine

/-! ### The operand commands are the two shared operations -/

theorem exec_readDescriptor {i : Instr} {d : Descriptor} (h : i.readDescriptor = some d)
    (s : State) : exec i s = completeByte (readOperand d s) := by
  cases i <;> simp [Instr.readDescriptor] at h <;> subst h <;> rfl

theorem exec_writeDescriptor {i : Instr} {d : Descriptor} {v : Byte}
    (h : i.writeDescriptor = some (d, v)) (s : State) :
    exec i s = completeUnit (writeOperand d v s) := by
  cases i <;> simp [Instr.writeDescriptor] at h <;> obtain ⟨rfl, rfl⟩ := h <;> rfl

theorem descriptor_cases {i : Instr} {d : Descriptor} (h : i.descriptor = some d) :
    i.readDescriptor = some d ∨ ∃ v, i.writeDescriptor = some (d, v) := by
  unfold Instr.descriptor at h
  cases hr : i.readDescriptor with
  | some _ =>
    rw [hr] at h
    exact .inl h
  | none =>
    rw [hr] at h
    cases hw : i.writeDescriptor with
    | none => simp [hw] at h
    | some p =>
      simp [hw] at h
      exact .inr ⟨p.2, by rw [← h]⟩

/-! ### When they answer -/

theorem completeByte_next {r : Result Byte} {t : State} (h : completeByte r = .next t) :
    ∃ v u, r = .done v u ∧ t = { u with rsp := some (v.setWidth 16) } := by
  cases r with
  | done v u =>
    injection h with h
    exact ⟨v, u, rfl, h.symm⟩
  | raised _ => cases h

theorem completeWord_next {r : Result Word} {t : State} (h : completeWord r = .next t) :
    ∃ v u, r = .done v u ∧ t = { u with rsp := some v } := by
  cases r with
  | done v u =>
    injection h with h
    exact ⟨v, u, rfl, h.symm⟩
  | raised _ => cases h

theorem completeUnit_next {r : Result Unit} {t : State} (h : completeUnit r = .next t) :
    ∃ u, r = .done () u ∧ t = { u with rsp := none } := by
  cases r with
  | done v u =>
    injection h with h
    exact ⟨u, rfl, h.symm⟩
  | raised _ => cases h

/-- All a `readOperand` that answers can do: `A` in Direct mode; else the effective address, one
read there and its last-read value. -/
theorem readOperand_done {d : Descriptor} {s t : State} {v : Byte}
    (h : readOperand d s = .done v t) :
    (d.mode = .direct ∧ t = s ∧ v = s.a) ∨
    (d.mode ≠ .direct ∧ ∃ e u, effectiveAddress d s = .done e u ∧
      ∃ w, memRead (e.setWidth 32) u = .done v w ∧ t = { w with lr := some v }) := by
  unfold readOperand at h
  split at h
  · rename_i hd
    injection h with h1 h2
    exact .inl ⟨hd, h2.symm, h1.symm⟩
  · rename_i hd
    obtain ⟨e, u, h1, h2⟩ := andThen_eq_done.1 h
    obtain ⟨v', w, h3, h4⟩ := andThen_eq_done.1 h2
    injection h4 with h4 h5
    subst h4
    exact .inr ⟨hd, e, u, h1, w, h3, h5.symm⟩

/-- All a `writeOperand` that answers can do: `A` in Direct mode; else the effective address and one
store there. -/
theorem writeOperand_done {d : Descriptor} {s t : State} {v : Byte} {x : Unit}
    (h : writeOperand d v s = .done x t) :
    (d.mode = .direct ∧ t = { s with a := v }) ∨
    (d.mode ≠ .direct ∧ ∃ e u, effectiveAddress d s = .done e u ∧
      t = storeOperand d.rmw v e u) := by
  unfold writeOperand at h
  split at h
  · rename_i hd
    injection h with h1 h2
    exact .inl ⟨hd, h2.symm⟩
  · rename_i hd
    obtain ⟨e, u, h1, h2⟩ := andThen_eq_done.1 h
    injection h2 with h2 h3
    exact .inr ⟨hd, e, u, h1, h3.symm⟩

/-! ### When they fault -/

theorem completeByte_fault {r : Result Byte} {f : Fault} (h : completeByte r = .fault f) :
    r = .raised f := by
  cases r with
  | done v u => cases h
  | raised _ =>
    injection h with h
    rw [h]

theorem completeWord_fault {r : Result Word} {f : Fault} (h : completeWord r = .fault f) :
    r = .raised f := by
  cases r with
  | done v u => cases h
  | raised _ =>
    injection h with h
    rw [h]

theorem completeUnit_fault {r : Result Unit} {f : Fault} (h : completeUnit r = .fault f) :
    r = .raised f := by
  cases r with
  | done v u => cases h
  | raised _ =>
    injection h with h
    rw [h]

/-! ### A step -/

/-- All a step that has a next state can do: a command executed, a reset, or another act of the
environment, which touches none of the block's own registers. -/
theorem step_next {s t : State} (h : step s = .next t) :
    (∃ w rest i, s.inputs = .command w :: rest ∧ s.fault = none ∧ decode w = .ok i ∧
      exec i { s with inputs := rest } = .next t) ∨
    (∃ rest, s.inputs = .reset :: rest ∧ t = resetBlock { s with inputs := rest }) ∨
    (t.rt = s.rt ∧ t.wt = s.wt ∧ t.ea = s.ea ∧ t.lr = s.lr ∧ t.fault = s.fault ∧
      t.bus = s.bus ∧ s.cyc ≤ t.cyc) := by
  unfold step fetch at h
  split at h
  · rename_i u hu
    injection h with h
    subst h
    split at hu
    · injection hu with hu
      subst hu
      simp
    · simp only [present] at hu
      split at hu
      · cases hu
      · split at hu <;> cases hu
    all_goals first
      | (injection hu with hu; subst hu; simp; done)
      | skip
    rename_i rest hin
    injection hu with hu
    subst hu
    exact .inr (.inl ⟨rest, hin, rfl⟩)
  · rename_i i u hu
    split at hu
    · cases hu
    · rename_i w rest hin
      simp only [present] at hu
      split at hu
      · cases hu
      rename_i hf
      split at hu
      · cases hu
      · rename_i j hj
        injection hu with h1 h2
        subst h1 h2
        exact .inl ⟨w, rest, j, hin, hf, hj, h⟩
    all_goals cases hu
  · cases h

end Sys2Proof.Machine
end

