-- ==== Sys2Proof/Laws/Encoding.lean ====
section
/-! SUPPORT. Command words as numbers: what each format's encoding is, and what each field of a word
is, so that a proof about words is a proof about quotients and remainders. -/

namespace Sys2Proof

theorem append_toNat {m n : Nat} (x : BitVec m) (y : BitVec n) :
    (x ++ y).toNat = x.toNat * 2 ^ n + y.toNat := by
  rw [BitVec.toNat_append, ← Nat.shiftLeft_add_eq_or_of_lt y.isLt, Nat.shiftLeft_eq]

theorem extract_toNat {m : Nat} (x : BitVec m) (lo n : Nat) :
    (x.extractLsb' lo n).toNat = x.toNat / 2 ^ lo % 2 ^ n := by
  simp [BitVec.extractLsb'_toNat, Nat.shiftRight_eq_div_pow]

/-! ### Encodings -/

theorem Descriptor.bits_toNat (d : Descriptor) :
    d.bits.toNat = d.mode.code.toNat * 4 + d.pbp.toNat * 2 + d.rmw.toNat := by
  unfold Descriptor.bits
  rw [append_toNat, append_toNat]
  cases d.pbp <;> cases d.rmw <;> simp <;> omega

theorem encodeB_toNat (op : BitVec 4) (addr : RawAddr) (data : Byte) :
    (encodeB op addr data).toNat = op.toNat * 2 ^ 44 + addr.toNat * 2 ^ 12 + data.toNat := by
  unfold encodeB
  rw [append_toNat, append_toNat, append_toNat, BitVec.toNat_ofNat]
  omega

theorem encodeI_toNat (op : BitVec 4) (start stop : Word) (hid : HandlerId) :
    (encodeI op start stop hid).toNat =
      op.toNat * 2 ^ 44 + start.toNat * 2 ^ 28 + stop.toNat * 2 ^ 12 + hid.toNat := by
  unfold encodeI
  rw [append_toNat, append_toNat, append_toNat]
  omega

theorem encodeO_toNat (op : BitVec 4) (d : Descriptor) (data : Byte) :
    (encodeO op d data).toNat = op.toNat * 2 ^ 44 + d.mode.code.toNat * 2 ^ 40 +
      d.pbp.toNat * 2 ^ 39 + d.rmw.toNat * 2 ^ 38 + data.toNat := by
  unfold encodeO
  rw [append_toNat, append_toNat, append_toNat, Descriptor.bits_toNat, BitVec.toNat_ofNat]
  omega

theorem encodeN_toNat (op : BitVec 4) : (encodeN op).toNat = op.toNat * 2 ^ 44 := by
  unfold encodeN
  rw [append_toNat, BitVec.toNat_ofNat]
  omega

theorem encodeS_toNat (op : BitVec 4) (wdata : Word) :
    (encodeS op wdata).toNat = op.toNat * 2 ^ 44 + wdata.toNat := by
  unfold encodeS
  rw [append_toNat, append_toNat, BitVec.toNat_ofNat]
  omega

/-! ### Fields -/

theorem CmdWord.op_toNat (w : CmdWord) : w.op.toNat = w.toNat / 2 ^ 44 % 2 ^ 4 :=
  extract_toNat _ _ _

theorem CmdWord.pbp_toNat (w : CmdWord) : w.pbp.toNat = w.toNat / 2 ^ 39 % 2 := by
  simp [CmdWord.pbp, BitVec.getLsbD, Nat.toNat_testBit]

theorem CmdWord.rmw_toNat (w : CmdWord) : w.rmw.toNat = w.toNat / 2 ^ 38 % 2 := by
  simp [CmdWord.rmw, BitVec.getLsbD, Nat.toNat_testBit]

theorem CmdWord.zeroBits_eq (w : CmdWord) (lo n : Nat) :
    w.zeroBits lo n = decide (w.toNat / 2 ^ lo % 2 ^ n = 0) := by
  rw [CmdWord.zeroBits, Bool.eq_iff_iff, beq_iff_eq, decide_eq_true_iff, ← extract_toNat,
    BitVec.toNat_eq]
  simp

/-! ### Mode codes -/

theorem Mode.code_ofCode (c : BitVec 4) : (Mode.ofCode c).code = c := by
  revert c; decide

theorem Mode.ofCode_wellFormed (c : BitVec 4) : (Mode.ofCode c).wellFormed = true := by
  revert c; decide

theorem Mode.ofCode_code (m : Mode) (h : m.wellFormed = true) : Mode.ofCode m.code = m := by
  cases m <;> try rfl
  rename_i c
  revert c
  decide

/-! ### The fields of an encoding -/

theorem bool_of_toNat {a b : Bool} (h : a.toNat = b.toNat) : a = b := by
  cases a <;> cases b <;> simp_all

theorem encodeB_fields (op : BitVec 4) (addr : RawAddr) (v : Byte) :
    (encodeB op addr v).op = op ∧ (encodeB op addr v).addr = addr ∧
    (encodeB op addr v).data = v ∧ (encodeB op addr v).zeroBits 8 4 = true ∧
    (encodeB op addr v).zeroBits 0 12 = decide (v = 0#8) := by
  have e := encodeB_toNat op addr v
  have := op.isLt; have := v.isLt; have := addr.isLt
  refine ⟨?_, ?_, ?_, ?_, ?_⟩
  · apply BitVec.eq_of_toNat_eq; rw [CmdWord.op_toNat, e]; omega
  · apply BitVec.eq_of_toNat_eq; unfold CmdWord.addr; rw [extract_toNat, e]; omega
  · apply BitVec.eq_of_toNat_eq; unfold CmdWord.data; rw [extract_toNat, e]; omega
  · rw [CmdWord.zeroBits_eq, e, decide_eq_true_iff]; omega
  · rw [CmdWord.zeroBits_eq, e]; simp only [BitVec.toNat_eq, BitVec.toNat_ofNat, decide_eq_decide]; omega

theorem encodeI_fields (op : BitVec 4) (a b : Word) (h : HandlerId) :
    (encodeI op a b h).op = op ∧ (encodeI op a b h).start = a ∧ (encodeI op a b h).stop = b ∧
    (encodeI op a b h).hid = h := by
  have e := encodeI_toNat op a b h
  have := op.isLt; have := a.isLt; have := b.isLt; have := h.isLt
  refine ⟨?_, ?_, ?_, ?_⟩
  · apply BitVec.eq_of_toNat_eq; rw [CmdWord.op_toNat, e]; omega
  · apply BitVec.eq_of_toNat_eq; unfold CmdWord.start; rw [extract_toNat, e]; omega
  · apply BitVec.eq_of_toNat_eq; unfold CmdWord.stop; rw [extract_toNat, e]; omega
  · apply BitVec.eq_of_toNat_eq; unfold CmdWord.hid; rw [extract_toNat, e]; omega

theorem encodeN_fields (op : BitVec 4) :
    (encodeN op).op = op ∧ (encodeN op).zeroBits 0 44 = true := by
  have e := encodeN_toNat op
  have := op.isLt
  refine ⟨?_, ?_⟩
  · apply BitVec.eq_of_toNat_eq; rw [CmdWord.op_toNat, e]; omega
  · rw [CmdWord.zeroBits_eq, e, decide_eq_true_iff]; omega

theorem encodeS_fields (op : BitVec 4) (w : Word) :
    (encodeS op w).op = op ∧ (encodeS op w).zeroBits 16 28 = true ∧ (encodeS op w).wdata = w ∧
    (encodeS op w).data = w.setWidth 8 ∧
    (w.toNat < 256 → (encodeS op w).zeroBits 8 36 = true) := by
  have e := encodeS_toNat op w
  have := op.isLt; have := w.isLt
  refine ⟨?_, ?_, ?_, ?_, ?_⟩
  · apply BitVec.eq_of_toNat_eq; rw [CmdWord.op_toNat, e]; omega
  · rw [CmdWord.zeroBits_eq, e, decide_eq_true_iff]; omega
  · apply BitVec.eq_of_toNat_eq; unfold CmdWord.wdata; rw [extract_toNat, e]; omega
  · apply BitVec.eq_of_toNat_eq; unfold CmdWord.data; rw [extract_toNat, e, BitVec.toNat_setWidth]; omega
  · intro; rw [CmdWord.zeroBits_eq, e, decide_eq_true_iff]; omega

theorem encodeO_fields (op : BitVec 4) (d : Descriptor) (v : Byte)
    (hm : d.mode.wellFormed = true) :
    (encodeO op d v).op = op ∧ (encodeO op d v).descriptor = d ∧ (encodeO op d v).data = v ∧
    (encodeO op d v).zeroBits 8 30 = true ∧
    (encodeO op d v).zeroBits 0 38 = decide (v = 0#8) := by
  have e := encodeO_toNat op d v
  have := op.isLt; have := v.isLt; have := d.mode.code.isLt
  have hp : d.pbp.toNat < 2 := Bool.toNat_lt _
  have hr : d.rmw.toNat < 2 := Bool.toNat_lt _
  refine ⟨?_, ?_, ?_, ?_, ?_⟩
  · apply BitVec.eq_of_toNat_eq; rw [CmdWord.op_toNat, e]; omega
  · have h1 : (encodeO op d v).mode = d.mode.code := by
      apply BitVec.eq_of_toNat_eq; unfold CmdWord.mode; rw [extract_toNat, e]; omega
    have h2 : (encodeO op d v).pbp = d.pbp := by
      apply bool_of_toNat; rw [CmdWord.pbp_toNat, e]; omega
    have h3 : (encodeO op d v).rmw = d.rmw := by
      apply bool_of_toNat; rw [CmdWord.rmw_toNat, e]; omega
    unfold CmdWord.descriptor
    rw [h1, h2, h3, Mode.ofCode_code _ hm]
  · apply BitVec.eq_of_toNat_eq; unfold CmdWord.data; rw [extract_toNat, e]; omega
  · rw [CmdWord.zeroBits_eq, e, decide_eq_true_iff]; omega
  · rw [CmdWord.zeroBits_eq, e]; simp only [BitVec.toNat_eq, BitVec.toNat_ofNat, decide_eq_decide]; omega


end Sys2Proof
end

