-- ==== Sys2Proof/Laws/PerInstr.lean ====
section
/-! SUPPORT. Statements about every command as syntax, one lemma per constructor. -/

namespace Sys2Proof.Laws.Opcode

/-- The word of a well-formed command holds the command's `OP` in bits 47 to 44 (R81, R82) and a 0 in
every bit its format marks reserved (R94), so it is never refused (R93). -/
def Statement (i : Instr) : Prop :=
  i.wellFormed = true → (encode i).op = i.opcode ∧ (encode i).reservedOk = some true

theorem formatO_read (d : Descriptor) (h : d.mode.wellFormed = true) :
    (encodeO 0x4#4 d 0#8).op = 0x4#4 ∧ (encodeO 0x4#4 d 0#8).reservedOk = some true := by
  obtain ⟨h1, -, -, -, h5⟩ := encodeO_fields 0x4#4 d 0#8 h
  exact ⟨h1, by simp [CmdWord.reservedOk, h1, h5]⟩

theorem formatO_write (d : Descriptor) (v : Byte) (h : d.mode.wellFormed = true) :
    (encodeO 0x5#4 d v).op = 0x5#4 ∧ (encodeO 0x5#4 d v).reservedOk = some true := by
  obtain ⟨h1, -, -, h4, -⟩ := encodeO_fields 0x5#4 d v h
  exact ⟨h1, by simp [CmdWord.reservedOk, h1, h4]⟩

theorem read (addr : RawAddr) : Statement (.read addr) := by
  intro _
  obtain ⟨h1, -, -, -, h5⟩ := encodeB_fields 0x0#4 addr 0#8
  exact ⟨h1, by simp [CmdWord.reservedOk, encode, Instr.opcode, h1, h5]⟩

theorem write (addr : RawAddr) (data : Byte) : Statement (.write addr data) := by
  intro _
  obtain ⟨h1, -, -, h4, -⟩ := encodeB_fields 0x1#4 addr data
  exact ⟨h1, by simp [CmdWord.reservedOk, encode, Instr.opcode, h1, h4]⟩

theorem installReadHandler (start stop : Word) (hid : HandlerId) :
    Statement (.installReadHandler start stop hid) := by
  intro _
  obtain ⟨h1, -⟩ := encodeI_fields 0x2#4 start stop hid
  exact ⟨h1, by simp [CmdWord.reservedOk, encode, Instr.opcode, h1]⟩

theorem installWriteHandler (start stop : Word) (hid : HandlerId) :
    Statement (.installWriteHandler start stop hid) := by
  intro _
  obtain ⟨h1, -⟩ := encodeI_fields 0x3#4 start stop hid
  exact ⟨h1, by simp [CmdWord.reservedOk, encode, Instr.opcode, h1]⟩

theorem readOperandNone (pbp rmw : Bool) : Statement (.readOperandNone pbp rmw) :=
  fun _ => formatO_read ⟨.none, pbp, rmw⟩ rfl

theorem readOperandDir (pbp rmw : Bool) : Statement (.readOperandDir pbp rmw) :=
  fun _ => formatO_read ⟨.direct, pbp, rmw⟩ rfl

theorem readOperandImm (pbp rmw : Bool) : Statement (.readOperandImm pbp rmw) :=
  fun _ => formatO_read ⟨.immediate, pbp, rmw⟩ rfl

theorem readOperandZp (pbp rmw : Bool) : Statement (.readOperandZp pbp rmw) :=
  fun _ => formatO_read ⟨.zeroPage, pbp, rmw⟩ rfl

theorem readOperandAbs (pbp rmw : Bool) : Statement (.readOperandAbs pbp rmw) :=
  fun _ => formatO_read ⟨.absolute, pbp, rmw⟩ rfl

theorem readOperandZpx (pbp rmw : Bool) : Statement (.readOperandZpx pbp rmw) :=
  fun _ => formatO_read ⟨.zeroPageX, pbp, rmw⟩ rfl

theorem readOperandZpy (pbp rmw : Bool) : Statement (.readOperandZpy pbp rmw) :=
  fun _ => formatO_read ⟨.zeroPageY, pbp, rmw⟩ rfl

theorem readOperandAbsx (pbp rmw : Bool) : Statement (.readOperandAbsx pbp rmw) :=
  fun _ => formatO_read ⟨.absoluteX, pbp, rmw⟩ rfl

theorem readOperandAbsy (pbp rmw : Bool) : Statement (.readOperandAbsy pbp rmw) :=
  fun _ => formatO_read ⟨.absoluteY, pbp, rmw⟩ rfl

theorem readOperandIndx (pbp rmw : Bool) : Statement (.readOperandIndx pbp rmw) :=
  fun _ => formatO_read ⟨.indirectX, pbp, rmw⟩ rfl

theorem readOperandIndy (pbp rmw : Bool) : Statement (.readOperandIndy pbp rmw) :=
  fun _ => formatO_read ⟨.indirectY, pbp, rmw⟩ rfl

theorem readOperandOutside (code : BitVec 4) (pbp rmw : Bool) :
    Statement (.readOperandOutside code pbp rmw) :=
  fun h => formatO_read ⟨.outside code, pbp, rmw⟩ h

theorem writeOperandNone (pbp rmw : Bool) (data : Byte) :
    Statement (.writeOperandNone pbp rmw data) :=
  fun _ => formatO_write ⟨.none, pbp, rmw⟩ data rfl

theorem writeOperandDir (pbp rmw : Bool) (data : Byte) :
    Statement (.writeOperandDir pbp rmw data) :=
  fun _ => formatO_write ⟨.direct, pbp, rmw⟩ data rfl

theorem writeOperandImm (pbp rmw : Bool) (data : Byte) :
    Statement (.writeOperandImm pbp rmw data) :=
  fun _ => formatO_write ⟨.immediate, pbp, rmw⟩ data rfl

theorem writeOperandZp (pbp rmw : Bool) (data : Byte) :
    Statement (.writeOperandZp pbp rmw data) :=
  fun _ => formatO_write ⟨.zeroPage, pbp, rmw⟩ data rfl

theorem writeOperandAbs (pbp rmw : Bool) (data : Byte) :
    Statement (.writeOperandAbs pbp rmw data) :=
  fun _ => formatO_write ⟨.absolute, pbp, rmw⟩ data rfl

theorem writeOperandZpx (pbp rmw : Bool) (data : Byte) :
    Statement (.writeOperandZpx pbp rmw data) :=
  fun _ => formatO_write ⟨.zeroPageX, pbp, rmw⟩ data rfl

theorem writeOperandZpy (pbp rmw : Bool) (data : Byte) :
    Statement (.writeOperandZpy pbp rmw data) :=
  fun _ => formatO_write ⟨.zeroPageY, pbp, rmw⟩ data rfl

theorem writeOperandAbsx (pbp rmw : Bool) (data : Byte) :
    Statement (.writeOperandAbsx pbp rmw data) :=
  fun _ => formatO_write ⟨.absoluteX, pbp, rmw⟩ data rfl

theorem writeOperandAbsy (pbp rmw : Bool) (data : Byte) :
    Statement (.writeOperandAbsy pbp rmw data) :=
  fun _ => formatO_write ⟨.absoluteY, pbp, rmw⟩ data rfl

theorem writeOperandIndx (pbp rmw : Bool) (data : Byte) :
    Statement (.writeOperandIndx pbp rmw data) :=
  fun _ => formatO_write ⟨.indirectX, pbp, rmw⟩ data rfl

theorem writeOperandIndy (pbp rmw : Bool) (data : Byte) :
    Statement (.writeOperandIndy pbp rmw data) :=
  fun _ => formatO_write ⟨.indirectY, pbp, rmw⟩ data rfl

theorem writeOperandOutside (code : BitVec 4) (pbp rmw : Bool) (data : Byte) :
    Statement (.writeOperandOutside code pbp rmw data) :=
  fun h => formatO_write ⟨.outside code, pbp, rmw⟩ data h

theorem resetForNextInstruction : Statement .resetForNextInstruction := by
  intro _
  decide

theorem push (data : Byte) : Statement (.push data) := by
  intro _
  obtain ⟨h1, -, -, -, h5⟩ := encodeS_fields 0x8#4 (data.setWidth 16)
  have h6 := h5 (by have := data.isLt; simp; omega)
  exact ⟨h1, by simp [CmdWord.reservedOk, encode, Instr.opcode, h1, h6]⟩

theorem pop : Statement .pop := by
  intro _
  decide

theorem pushWord (word : Word) : Statement (.pushWord word) := by
  intro _
  obtain ⟨h1, h2, -⟩ := encodeS_fields 0xA#4 word
  exact ⟨h1, by simp [CmdWord.reservedOk, encode, Instr.opcode, h1, h2]⟩

theorem popWord : Statement .popWord := by
  intro _
  decide

end Sys2Proof.Laws.Opcode
end

