-- ==== Sys2Proof/Tests/Slice0.lean ====
section
/-! SUPPORT. The model's own tests. Expected results come from 95_test_vectors.md (the vector is named
in each docstring) or are worked out by hand from the rule named. A `witness` theorem shows that the
hypotheses of the obligation it is named after can be met, clause by clause. -/

namespace Sys2Proof.Tests

open Sys2Proof Sys2Proof.Machine

/-! ### Helpers -/

/-- The section default of 95_test_vectors.md: every slot of both tables bound to handler 1, `PC` at
0x8001, `SP` at 0xFD; the answers the handlers will give are listed. -/
def base (answers : List Byte) : State where
  pc := 0x8001
  a := 0x00
  x := 0x00
  y := 0x00
  sp := 0xFD
  cyc := 100
  rt := [⟨0x0000, 0xFFFF, 0x001⟩]
  wt := [⟨0x0000, 0xFFFF, 0x001⟩]
  ea := none
  lr := none
  fault := none
  rsp := none
  bus := []
  inputs := []
  answers := answers
  draws := 0

/-- Nothing installed. -/
def bare (answers : List Byte) : State := { base answers with rt := [], wt := [] }

/-- A faulted block. -/
def down (inputs : List Input) : State :=
  { base [] with fault := some ⟨1, 0x1234⟩, inputs := inputs }

def completes (o : Host.Outcome State Fault Refusal) (p : State → Bool) : Bool :=
  match o with
  | .next t => p t
  | .fault _ => false
  | .refused _ => false

def faultsWith (o : Host.Outcome State Fault Refusal) (code : BitVec 2) (info : Word)
    (events : List BusEvent) : Bool :=
  match o with
  | .next _ => false
  | .fault f => f.code == code && f.info == info && f.after.bus == events
      && f.after.fault == some ⟨code, info⟩
  | .refused _ => false

def refuses (o : Host.Outcome State Fault Refusal) (why : Refusal) : Bool :=
  match o with
  | .next _ => false
  | .fault _ => false
  | .refused r => r == why

/-- The next state of an outcome that has one. -/
def nextOf (o : Host.Outcome State Fault Refusal) : State :=
  match o with
  | .next t => t
  | .fault _ => base []
  | .refused _ => base []

/-! ### WellFormed -/

/-- The one check refuses a code inside the enumeration (R87), in both constructors that hold one. -/
theorem test_wellFormed :
    (Instr.readOperandOutside 10 false true).wellFormed = false ∧
    (Instr.readOperandOutside 11 false true).wellFormed = true ∧
    (Instr.writeOperandOutside 0 true false 0x12).wellFormed = false ∧
    (Instr.writeOperandOutside 15 true false 0x12).wellFormed = true ∧
    (Mode.outside 10).wellFormed = false ∧ (Mode.outside 11).wellFormed = true := by decide

/-! ### Decoding -/

/-- Formats B and I by hand: OP, ADDR, 0, DATA (R81, R83) and OP, START, END, HID (R84). -/
theorem test_decode_dispatcher :
    decode 0x012348000000 = .ok (.read 0x12348000) ∧
    decode 0x1FFFF0200099 = .ok (.write 0xFFFF0200 0x99) ∧
    decode 0x200100012001 = .ok (.installReadHandler 0x0010 0x0012 0x001) ∧
    decode 0x340004017003 = .ok (.installWriteHandler 0x4000 0x4017 0x003) := by decide

/-- Format O by hand: OP 4, MODE, then the nibble PBP, RMW, 0, 0 (R81, R85, R87). -/
theorem test_decode_readOperand :
    decode 0x400000000000 = .ok (.readOperandNone false false) ∧
    decode 0x414000000000 = .ok (.readOperandDir false true) ∧
    decode 0x428000000000 = .ok (.readOperandImm true false) ∧
    decode 0x43C000000000 = .ok (.readOperandZp true true) ∧
    decode 0x444000000000 = .ok (.readOperandAbs false true) ∧
    decode 0x458000000000 = .ok (.readOperandZpx true false) ∧
    decode 0x464000000000 = .ok (.readOperandZpy false true) ∧
    decode 0x478000000000 = .ok (.readOperandAbsx true false) ∧
    decode 0x484000000000 = .ok (.readOperandAbsy false true) ∧
    decode 0x498000000000 = .ok (.readOperandIndx true false) ∧
    decode 0x4A8000000000 = .ok (.readOperandIndy true false) ∧
    decode 0x4B0000000000 = .ok (.readOperandOutside 11 false false) ∧
    decode 0x4FC000000000 = .ok (.readOperandOutside 15 true true) := by decide

/-- Format O by hand: OP 5, with DATA in the low byte. -/
theorem test_decode_writeOperand :
    decode 0x500000000012 = .ok (.writeOperandNone false false 0x12) ∧
    decode 0x514000000078 = .ok (.writeOperandDir false true 0x78) ∧
    decode 0x52000000005A = .ok (.writeOperandImm false false 0x5A) ∧
    decode 0x534000000080 = .ok (.writeOperandZp false true 0x80) ∧
    decode 0x544000000041 = .ok (.writeOperandAbs false true 0x41) ∧
    decode 0x554000000080 = .ok (.writeOperandZpx false true 0x80) ∧
    decode 0x568000000001 = .ok (.writeOperandZpy true false 0x01) ∧
    decode 0x578000000011 = .ok (.writeOperandAbsx true false 0x11) ∧
    decode 0x58C0000000FF = .ok (.writeOperandAbsy true true 0xFF) ∧
    decode 0x594000000022 = .ok (.writeOperandIndx false true 0x22) ∧
    decode 0x5A8000000099 = .ok (.writeOperandIndy true false 0x99) ∧
    decode 0x5C40000000FF = .ok (.writeOperandOutside 12 false true 0xFF) := by decide

/-- Formats N and S by hand (R88). -/
theorem test_decode_boundary_and_stack :
    decode 0x600000000000 = .ok .resetForNextInstruction ∧
    decode 0x800000000024 = .ok (.push 0x24) ∧
    decode 0x900000000000 = .ok .pop ∧
    decode 0xA00000008002 = .ok (.pushWord 0x8002) ∧
    decode 0xB00000000000 = .ok .popWord := by decide

/-- V-X1 to V-X10: refused words. -/
theorem test_decode_refused :
    decode 0x700000000000 = .error (.reservedOp 0x7) ∧
    decode 0xC00000000000 = .error (.reservedOp 0xC) ∧
    decode 0xD00000000000 = .error (.reservedOp 0xD) ∧
    decode 0xE00000000000 = .error (.reservedOp 0xE) ∧
    decode 0xFFFFFFFFFFFF = .error (.reservedOp 0xF) ∧
    decode 0x000008000001 = .error (.reservedBits 0x0) ∧
    decode 0x000008000100 = .error (.reservedBits 0x0) ∧
    decode 0x100008000F5A = .error (.reservedBits 0x1) ∧
    decode 0x478000000001 = .error (.reservedBits 0x4) ∧
    decode 0x471000000000 = .error (.reservedBits 0x4) ∧
    decode 0x600000000001 = .error (.reservedBits 0x6) ∧
    decode 0x800000000100 = .error (.reservedBits 0x8) ∧
    decode 0xA00000010000 = .error (.reservedBits 0xA) := by decide

/-- The encoder's words are those of 95_test_vectors.md section 6. -/
theorem test_encode :
    encode (.installWriteHandler 0x4020 0xFFFF 0xABC) = 0x34020FFFFABC ∧
    encode (.readOperandIndy true true) = 0x4AC000000000 ∧
    encode (.writeOperandAbsy true false 0xFE) = 0x5880000000FE ∧
    encode (.write 0xFFFFFFFF 0xFF) = 0x1FFFFFFFF0FF ∧
    encode (.push 0xAB) = 0x8000000000AB := by decide

/-- The host's numbering: the 48 bits are the command word. -/
theorem test_decodeTableWord :
    decodeTableWord 48 0x43C000000000 = some (.readOperandZp true true) ∧
    decodeTableWord 48 0x700000000000 = none := by decide

/-! ### The port -/

/-- V-S3 through the port: the word stands as the environment's next act and the step runs it. -/
theorem test_step_runs_the_word :
    completes (step ((base []).withFetchWord 48 0x8000000000AB))
      (fun t => t.sp == 0xFC && t.bus == [.write 0x001 0x01FD 0xAB] && t.inputs == []) = true := by
  decide

/-- The first step after reset runs the word too: V-D2, nothing installed. -/
theorem test_step_from_reset :
    completes (step (State.reset.withFetchWord 48 0x100001234055)) (fun t => t.bus == []) = true := by
  decide

/-- V-X1, and V-F2: a word that selects no command, and any word while the block is faulted. -/
theorem test_step_refuses :
    refuses (step ((base []).withFetchWord 48 0x700000000000)) (.malformed (.reservedOp 0x7)) = true ∧
    refuses (step ((down []).withFetchWord 48 0x100000000000)) .blockFaulted = true := by decide

/-- V-F3: reset ends a fault. -/
theorem test_reset :
    completes (step (down [.reset])) (fun t => t.fault == none && t.rt == [] && t.wt == []
      && t.ea == none && t.lr == none && t.pc == 0x8001) = true := by decide

/-! ### The dispatcher -/

/-- V-D9: the address is masked to 16 bits. -/
theorem test_read_masks :
    completes (exec (.read 0x00010000) (base [0x42]))
      (fun t => t.bus == [.read 0x001 0x0000 0x42] && t.rsp == some 0x0042) = true := by decide

/-- V-D4: one past an inclusive range. -/
theorem test_read_unmapped :
    faultsWith (exec (.read 0x0013) { bare [] with rt := [⟨0x0010, 0x0012, 0x001⟩] })
      1 0x0013 [] = true := by decide

/-- V-D10. -/
theorem test_write :
    completes (exec (.write 0xFFFF0200 0x99) (base []))
      (fun t => t.bus == [.write 0x001 0x0200 0x99]) = true := by decide

/-- V-D5: a write is discarded where only a read handler stands. -/
theorem test_write_unmapped :
    completes (exec (.write 0x0011 0x77) { bare [] with rt := [⟨0x0010, 0x0012, 0x001⟩] })
      (fun t => t.bus == [] && t.fault == none) = true := by decide

/-- V-D11 to V-D13: the last writer wins per address. -/
theorem test_installReadHandler :
    completes (runCommands [.installReadHandler 0x2000 0x3FFF 0x003,
        .installReadHandler 0x2000 0x2007 0x002] (base []))
      (fun t => t.rt.lookup 0x2000 == some 0x002 && t.rt.lookup 0x2007 == some 0x002
        && t.rt.lookup 0x2008 == some 0x003 && t.rt.lookup 0x1FFF == some 0x001
        && t.rt.lookup 0x4000 == some 0x001 && t.wt.lookup 0x2000 == some 0x001) = true := by decide

/-- V-D18: start above end is the empty range; V-D16: the whole address space. -/
theorem test_installReadHandler_edges :
    completes (exec (.installReadHandler 0xFFFF 0x0000 0x001) (bare [])) (fun t => t.rt == []) = true ∧
    completes (exec (.installReadHandler 0x0000 0xFFFF 0xFFF) (bare []))
      (fun t => t.rt.lookup 0x0000 == some 0xFFF && t.rt.lookup 0xFFFF == some 0xFFF
        && t.rt.lookup 0x8000 == some 0xFFF && t.bus == []) = true := by decide

/-- V-D15. -/
theorem test_installWriteHandler :
    completes (exec (.installWriteHandler 0x4000 0x4017 0x003) (bare []))
      (fun t => t.wt.lookup 0x3FFF == none && t.wt.lookup 0x4000 == some 0x003
        && t.wt.lookup 0x4017 == some 0x003 && t.wt.lookup 0x4018 == none && t.rt == []) = true := by
  decide

/-! ### readOperand -/

/-- V-NM1, V-F7: mode None faults before any fetch. -/
theorem test_readOperandNone_faults :
    faultsWith (exec (.readOperandNone false false) (bare [])) 2 0x0000 [] = true := by decide

/-- R160: with an address memoized the mode is not consulted, None included. -/
theorem test_readOperandNone_memoized :
    completes (exec (.readOperandNone false false) { base [0x99] with ea := some 0x00044 })
      (fun t => t.bus == [.read 0x001 0x0044 0x99] && t.rsp == some 0x0099
        && t.lr == some 0x99 && t.pc == 0x8001) = true := by decide

/-- V-A11: `A`, whatever `pbp` and `rmw` say. -/
theorem test_readOperandDir :
    completes (exec (.readOperandDir true true) { bare [] with a := 0x3C })
      (fun t => t.rsp == some 0x003C && t.bus == [] && t.pc == 0x8001 && t.ea == none
        && t.lr == none) = true := by decide

/-- V-IM2: `PC` wraps. -/
theorem test_readOperandImm :
    completes (exec (.readOperandImm false false) { base [0x07] with pc := 0xFFFF })
      (fun t => t.bus == [.read 0x001 0xFFFF 0x07] && t.rsp == some 0x0007 && t.pc == 0x0000
        && t.ea == some 0x0FFFF && t.cyc == 100) = true := by decide

/-- V-F9: the final read faults at the old `PC`. -/
theorem test_readOperandImm_unmapped :
    faultsWith (exec (.readOperandImm false false) (bare [])) 1 0x8001 [] = true := by decide

/-- V-ZP2. -/
theorem test_readOperandZp :
    completes (exec (.readOperandZp false false) (base [0xFF, 0x12]))
      (fun t => t.bus == [.read 0x001 0x8001 0xFF, .read 0x001 0x00FF 0x12]
        && t.rsp == some 0x0012 && t.pc == 0x8002 && t.ea == some 0x000FF) = true := by decide

/-- V-F6: the operand fetch faults. -/
theorem test_readOperandZp_unmapped :
    faultsWith (exec (.readOperandZp false false) { bare [] with rt := [⟨0x0000, 0x7FFF, 0x001⟩] })
      1 0x8001 [] = true := by decide

/-- V-AB2: low byte first, across the top of the address space. -/
theorem test_readOperandAbs :
    completes (exec (.readOperandAbs false false) { base [0x00, 0x03, 0x77] with pc := 0xFFFF })
      (fun t => t.bus == [.read 0x001 0xFFFF 0x00, .read 0x001 0x0000 0x03, .read 0x001 0x0300 0x77]
        && t.rsp == some 0x0077 && t.pc == 0x0001 && t.ea == some 0x00300) = true := by decide

/-- V-F4: the final read faults after both operand reads. -/
theorem test_readOperandAbs_unmapped :
    faultsWith (exec (.readOperandAbs false false)
        { bare [0x10, 0x00] with rt := [⟨0x8000, 0xFFFF, 0x001⟩] })
      1 0x0010 [.read 0x001 0x8001 0x10, .read 0x001 0x8002 0x00] = true := by decide

/-- V-ZX2: index 0xFF adds 255, and the sum stays in the zero page. -/
theorem test_readOperandZpx :
    completes (exec (.readOperandZpx false false) { base [0x80, 0x21] with x := 0xFF })
      (fun t => t.bus == [.read 0x001 0x8001 0x80, .read 0x001 0x007F 0x21]
        && t.pc == 0x8002 && t.ea == some 0x0007F) = true := by decide

/-- V-ZX4: no penalty although the sum leaves the page. -/
theorem test_readOperandZpx_no_penalty :
    completes (exec (.readOperandZpx true false) { base [0xFF, 0x06] with x := 0xFF })
      (fun t => t.ea == some 0x000FE && t.cyc == 100) = true := by decide

/-- V-ZY2: `Y`, not `X`. -/
theorem test_readOperandZpy :
    completes (exec (.readOperandZpy false false) { base [0xFF, 0x32] with x := 0x40, y := 0x01 })
      (fun t => t.bus == [.read 0x001 0x8001 0xFF, .read 0x001 0x0000 0x32]
        && t.ea == some 0x00000) = true := by decide

/-- V-AX4: bit 16 of the address is kept and masked at the bus; one cycle. -/
theorem test_readOperandAbsx :
    completes (exec (.readOperandAbsx true false) { base [0xFF, 0xFF, 0x6C] with x := 0x01 })
      (fun t => t.bus == [.read 0x001 0x8001 0xFF, .read 0x001 0x8002 0xFF, .read 0x001 0x0000 0x6C]
        && t.pc == 0x8003 && t.ea == some 0x10000 && t.cyc == 101) = true := by decide

/-- V-AX7: the largest sum that stays in the page; V-AX3: a crossing without `pbp`. -/
theorem test_readOperandAbsx_no_penalty :
    completes (exec (.readOperandAbsx true false) { base [0x00, 0x20, 0x5C] with x := 0xFF })
      (fun t => t.ea == some 0x020FF && t.cyc == 100) = true ∧
    completes (exec (.readOperandAbsx false false) { base [0xFF, 0x20, 0x5A] with x := 0x01 })
      (fun t => t.ea == some 0x02100 && t.cyc == 100) = true := by decide

/-- V-AY4: the largest address there is. -/
theorem test_readOperandAbsy :
    completes (exec (.readOperandAbsy true false) { base [0xFF, 0xFF, 0x50] with y := 0xFF })
      (fun t => t.bus == [.read 0x001 0x8001 0xFF, .read 0x001 0x8002 0xFF, .read 0x001 0x00FE 0x50]
        && t.ea == some 0x100FE && t.cyc == 101) = true := by decide

/-- V-AY3: `Y`, not `X`. -/
theorem test_readOperandAbsy_uses_y :
    completes (exec (.readOperandAbsy true false) { base [0xF0, 0x12, 0x4F] with x := 0x20 })
      (fun t => t.ea == some 0x012F0 && t.cyc == 100) = true := by decide

/-- V-IX2: a pointer at 0xFF takes its high byte from 0x0000. -/
theorem test_readOperandIndx :
    completes (exec (.readOperandIndx false false) { base [0xFE, 0x34, 0x12, 0xA2] with x := 0x01 })
      (fun t => t.bus == [.read 0x001 0x8001 0xFE, .read 0x001 0x00FF 0x34, .read 0x001 0x0000 0x12,
          .read 0x001 0x1234 0xA2]
        && t.pc == 0x8002 && t.ea == some 0x01234 && t.rsp == some 0x00A2) = true := by decide

/-- V-IX4: never a penalty. -/
theorem test_readOperandIndx_no_penalty :
    completes (exec (.readOperandIndx true false) { base [0x20, 0xFF, 0x20, 0xA4] with x := 0x04 })
      (fun t => t.ea == some 0x020FF && t.cyc == 100) = true := by decide

/-- V-IY5: the sum is masked, and is still a crossing. -/
theorem test_readOperandIndy :
    completes (exec (.readOperandIndy true false) { base [0x10, 0xFF, 0xFF, 0xB5] with y := 0x01 })
      (fun t => t.bus == [.read 0x001 0x8001 0x10, .read 0x001 0x0010 0xFF, .read 0x001 0x0011 0xFF,
          .read 0x001 0x0000 0xB5]
        && t.ea == some 0x00000 && t.cyc == 101) = true := by decide

/-- V-IY4: a pointer at 0xFF takes its high byte from 0x0000. -/
theorem test_readOperandIndy_wraps :
    completes (exec (.readOperandIndy true false) { base [0xFF, 0xF0, 0x20, 0xB4] with y := 0x20 })
      (fun t => t.bus == [.read 0x001 0x8001 0xFF, .read 0x001 0x00FF 0xF0, .read 0x001 0x0000 0x20,
          .read 0x001 0x2110 0xB4] && t.cyc == 101) = true := by decide

/-- V-NM4: the mode's number is the fault's information. -/
theorem test_readOperandOutside_faults :
    faultsWith (exec (.readOperandOutside 15 false false) (base [])) 2 0x000F [] = true := by decide

/-- V-A15: with an address memoized it does not fault. -/
theorem test_readOperandOutside_memoized :
    completes (exec (.readOperandOutside 11 false false)
        { base [0x99] with ea := some 0x00044, a := 0x78 })
      (fun t => t.bus == [.read 0x001 0x0044 0x99] && t.rsp == some 0x0099) = true := by decide

/-! ### writeOperand -/

/-- V-NM2. -/
theorem test_writeOperandNone_faults :
    faultsWith (exec (.writeOperandNone false false 0x12) (base [])) 2 0x0000 [] = true := by decide

/-- R161: with an address memoized the mode is not consulted, None included. -/
theorem test_writeOperandNone_memoized :
    completes (exec (.writeOperandNone false false 0x12) { base [] with ea := some 0x10000 })
      (fun t => t.bus == [.write 0x001 0x0000 0x12] && t.ea == some 0x10000) = true := by decide

/-- V-A12: no dummy write in Direct mode. -/
theorem test_writeOperandDir :
    completes (exec (.writeOperandDir false true 0x78) (base []))
      (fun t => t.a == 0x78 && t.bus == [] && t.pc == 0x8001 && t.ea == none) = true := by decide

/-- V-IM4. -/
theorem test_writeOperandImm :
    completes (exec (.writeOperandImm false false 0x5A) (base []))
      (fun t => t.bus == [.write 0x001 0x8001 0x5A] && t.pc == 0x8002
        && t.ea == some 0x08001) = true := by decide

/-- V-F10: nothing mapped, and no fault. -/
theorem test_writeOperandImm_unmapped :
    completes (exec (.writeOperandImm false false 0x5A) (bare []))
      (fun t => t.bus == [] && t.pc == 0x8002 && t.ea == some 0x08001) = true := by decide

/-- V-A16: both writes are discarded, and no fault. -/
theorem test_writeOperandZp_unmapped :
    completes (exec (.writeOperandZp false true 0x55)
        { bare [0x44] with rt := [⟨0x8000, 0xFFFF, 0x001⟩] })
      (fun t => t.bus == [.read 0x001 0x8001 0x44] && t.pc == 0x8002 && t.ea == some 0x00044
        && t.lr == none) = true := by decide

/-- V-A9: two writes in order, the first with a byte under no law, whatever it is. -/
theorem test_writeOperandZp_rmw_first :
    completes (exec (.writeOperandZp false true 0x80) (base [0x44]))
      (fun t => t.bus.map BusEvent.addr == [0x8001, 0x0044, 0x0044]
        && t.bus.drop 2 == [.write 0x001 0x0044 0x80] && t.lr == none) = true := by decide

/-- V-A6: the value read, then the value given. -/
theorem test_writeOperandAbs_rmw :
    completes (runCommands [.readOperandAbs false true, .writeOperandAbs false true 0x41]
        (base [0x06, 0x20, 0x40]))
      (fun t => t.bus.drop 3 == [.write 0x001 0x2006 0x40, .write 0x001 0x2006 0x41]
        && t.pc == 0x8003 && t.lr == some 0x40) = true := by decide

/-- P2, line 7. -/
theorem test_writeOperandZpx_rmw :
    completes (runCommands [.readOperandZpx false true, .writeOperandZpx false true 0x80]
        { base [0xFF, 0x7F] with x := 0x01 })
      (fun t => t.bus.drop 2 == [.write 0x001 0x0000 0x7F, .write 0x001 0x0000 0x80]
        && t.pc == 0x8002) = true := by decide

/-- R139 by hand: 0xF0 + 0x20 = 0x110, masked to 0x10. -/
theorem test_writeOperandZpy :
    completes (exec (.writeOperandZpy true false 0x01) { base [0xF0] with x := 0x01, y := 0x20 })
      (fun t => t.bus == [.read 0x001 0x8001 0xF0, .write 0x001 0x0010 0x01]
        && t.cyc == 100 && t.pc == 0x8002) = true := by decide

/-- V-AX8: the penalty of a store. -/
theorem test_writeOperandAbsx :
    completes (exec (.writeOperandAbsx true false 0x11) { base [0xFF, 0x20] with x := 0x01 })
      (fun t => t.bus == [.read 0x001 0x8001 0xFF, .read 0x001 0x8002 0x20, .write 0x001 0x2100 0x11]
        && t.pc == 0x8003 && t.cyc == 101 && t.ea == some 0x02100) = true := by decide

/-- R141 by hand: 0x12F0 + 0x20 = 0x1310, a crossing. -/
theorem test_writeOperandAbsy :
    completes (exec (.writeOperandAbsy true false 0x22) { base [0xF0, 0x12] with y := 0x20 })
      (fun t => t.bus == [.read 0x001 0x8001 0xF0, .read 0x001 0x8002 0x12, .write 0x001 0x1310 0x22]
        && t.cyc == 101 && t.pc == 0x8003) = true := by decide

/-- R142 by hand: pointer 0x20 + 0x04 = 0x24. -/
theorem test_writeOperandIndx :
    completes (exec (.writeOperandIndx true false 0x33) { base [0x20, 0xFF, 0x20] with x := 0x04 })
      (fun t => t.bus == [.read 0x001 0x8001 0x20, .read 0x001 0x0024 0xFF, .read 0x001 0x0025 0x20,
          .write 0x001 0x20FF 0x33] && t.cyc == 100) = true := by decide

/-- V-F5: the pointer's low byte is unmapped, and its high byte is never read. -/
theorem test_readOperandIndx_unmapped :
    faultsWith (exec (.readOperandIndx false false)
        { bare [0x10] with rt := [⟨0x8000, 0xFFFF, 0x001⟩] })
      1 0x0010 [.read 0x001 0x8001 0x10] = true := by decide

/-- V-IY7: the penalty of a store. -/
theorem test_writeOperandIndy :
    completes (exec (.writeOperandIndy true false 0x99) { base [0x10, 0xF0, 0x20] with y := 0x20 })
      (fun t => t.bus == [.read 0x001 0x8001 0x10, .read 0x001 0x0010 0xF0, .read 0x001 0x0011 0x20,
          .write 0x001 0x2110 0x99] && t.cyc == 101 && t.pc == 0x8002) = true := by decide

/-- V-NM5. -/
theorem test_writeOperandOutside_faults :
    faultsWith (exec (.writeOperandOutside 12 false true 0xFF) (base [])) 2 0x000C [] = true := by
  decide

/-- R161: with an address memoized a mode outside the enumeration stores like any other. -/
theorem test_writeOperandOutside_memoized :
    completes (exec (.writeOperandOutside 12 false true 0xFF)
        { base [] with ea := some 0x00044, lr := some 0x99 })
      (fun t => t.bus == [.write 0x001 0x0044 0x99, .write 0x001 0x0044 0xFF]) = true := by decide

/-! ### The boundary and the stack -/

/-- V-A4. -/
theorem test_resetForNextInstruction :
    completes (exec .resetForNextInstruction
        { base [] with ea := some 0x02100, lr := some 0x5A, pc := 0x9000 })
      (fun t => t.ea == none && t.lr == none && t.pc == 0x9000) = true := by decide

/-- V-S1: `SP` wraps at 0x00. -/
theorem test_push :
    completes (exec (.push 0xAB) { base [] with sp := 0x00 })
      (fun t => t.bus == [.write 0x001 0x0100 0xAB] && t.sp == 0xFF) = true := by decide

/-- V-S11: the byte is lost, `SP` still moves. -/
theorem test_push_unmapped :
    completes (exec (.push 0x77) { bare [] with sp := 0x80 })
      (fun t => t.bus == [] && t.sp == 0x7F) = true := by decide

/-- V-S2: 0x0100, not 0x0200. -/
theorem test_pop :
    completes (exec .pop { base [0xAB] with sp := 0xFF })
      (fun t => t.bus == [.read 0x001 0x0100 0xAB] && t.rsp == some 0x00AB && t.sp == 0x00) = true := by
  decide

/-- V-S12. -/
theorem test_pop_unmapped :
    faultsWith (exec .pop { bare [] with sp := 0x80, rt := [⟨0x8000, 0xFFFF, 0x001⟩] })
      1 0x0181 [] = true := by decide

/-- V-S7: high byte at 0x0100, low byte at 0x01FF. -/
theorem test_pushWord :
    completes (exec (.pushWord 0x1234) { base [] with sp := 0x00 })
      (fun t => t.bus == [.write 0x001 0x0100 0x12, .write 0x001 0x01FF 0x34]
        && t.sp == 0xFE) = true := by decide

/-- V-S8. -/
theorem test_popWord :
    completes (exec .popWord { base [0x34, 0x12] with sp := 0xFE })
      (fun t => t.bus == [.read 0x001 0x01FF 0x34, .read 0x001 0x0100 0x12]
        && t.rsp == some 0x1234 && t.sp == 0x00) = true := by decide

/-- V-S13: the first read has been made when the second faults. -/
theorem test_popWord_unmapped :
    faultsWith (exec .popWord { bare [0x11] with sp := 0x80, rt := [⟨0x0181, 0x0181, 0x001⟩] })
      1 0x0182 [.read 0x001 0x0181 0x11] = true := by decide

/-! ### Witnesses: the port and the decoder -/

theorem witness_ResetAction :
    (down [.reset, .reset]).inputs = .reset :: [.reset] ∧ (base []).inputs ≠ [.reset] ∧
    { base [] with inputs := [.reset] }.inputs = .reset :: [] := by decide

theorem witness_EnvironmentActs :
    (base []).inputs = [] ∧
    { base [] with inputs := [.setPc 0xFFFF] }.inputs = .setPc 0xFFFF :: [] ∧
    { base [] with inputs := [.setA 0xFF] }.inputs = .setA 0xFF :: [] ∧
    { base [] with inputs := [.setX 0xFF] }.inputs = .setX 0xFF :: [] ∧
    { base [] with inputs := [.setY 0xFF] }.inputs = .setY 0xFF :: [] ∧
    { base [] with inputs := [.setSp 0x00] }.inputs = .setSp 0x00 :: [] ∧
    { base [] with inputs := [.addCyc 0] }.inputs = .addCyc 0 :: [] := by decide

theorem witness_StepRunsTheDecodedCommand :
    { base [] with inputs := [.command 0x900000000000] }.inputs = .command 0x900000000000 :: [] ∧
    { base [] with inputs := [.command 0x900000000000] }.fault = none ∧
    decode 0x900000000000 = .ok .pop := by decide

theorem witness_RefusedWords :
    { base [] with inputs := [.command 0x700000000000] }.inputs = .command 0x700000000000 :: [] ∧
    { base [] with inputs := [.command 0x700000000000] }.fault = none ∧
    decode 0x700000000000 = .error (.reservedOp 7) ∧
    (down [.command 0x900000000000]).inputs = .command 0x900000000000 :: [] ∧
    (down [.command 0x900000000000]).fault ≠ none := by decide

theorem witness_OnlyResetClearsAFault :
    (down [.reset]).fault ≠ none ∧ (down [.setPc 0xFFFF]).fault ≠ none ∧ (down []).fault ≠ none ∧
    step (down [.reset]) = .next (nextOf (step (down [.reset]))) ∧
    step (down [.setPc 0xFFFF]) = .next (nextOf (step (down [.setPc 0xFFFF]))) ∧
    step (down []) = .next (nextOf (step (down []))) :=
  ⟨by decide, by decide, by decide, rfl, rfl, rfl⟩

theorem witness_DecodeOfEncode :
    (Instr.readOperandOutside 11 true true).wellFormed = true ∧
    (Instr.installReadHandler 0xFFFF 0x0000 0xFFF).wellFormed = true := by decide

theorem witness_EncodeOfDecode :
    decode 0x4FC000000000 = .ok (.readOperandOutside 15 true true) ∧
    decode 0x1FFFFFFFF0FF = .ok (.write 0xFFFFFFFF 0xFF) := by decide

/-- One word for each clause: its `OP`, and a reserved bit of its format set. -/
theorem witness_ReservedWordsRefused :
    (0x7FFFFFFFFFFF#48).toNat / 2 ^ 44 = 7 ∧ 12 ≤ (0xC00000000000#48).toNat / 2 ^ 44 ∧
    (0x000008000001#48).toNat / 2 ^ 44 = 0 ∧ (0x000008000001#48).toNat % 2 ^ 12 ≠ 0 ∧
    (0x100008000F5A#48).toNat / 2 ^ 44 = 1 ∧ (0x100008000F5A#48).toNat / 2 ^ 8 % 2 ^ 4 ≠ 0 ∧
    (0x471000000000#48).toNat / 2 ^ 44 = 4 ∧ (0x471000000000#48).toNat % 2 ^ 38 ≠ 0 ∧
    (0x520000000100#48).toNat / 2 ^ 44 = 5 ∧ (0x520000000100#48).toNat / 2 ^ 8 % 2 ^ 30 ≠ 0 ∧
    (0x600000000001#48).toNat / 2 ^ 44 = 6 ∧ (0x600000000001#48).toNat % 2 ^ 44 ≠ 0 ∧
    (0x800000000100#48).toNat / 2 ^ 44 = 8 ∧ (0x800000000100#48).toNat / 2 ^ 8 % 2 ^ 36 ≠ 0 ∧
    (0x980000000000#48).toNat / 2 ^ 44 = 9 ∧ (0x980000000000#48).toNat % 2 ^ 44 ≠ 0 ∧
    (0xA00000010000#48).toNat / 2 ^ 44 = 10 ∧ (0xA00000010000#48).toNat / 2 ^ 16 % 2 ^ 28 ≠ 0 ∧
    (0xB00000000001#48).toNat / 2 ^ 44 = 11 ∧ (0xB00000000001#48).toNat % 2 ^ 44 ≠ 0 := by decide

theorem witness_RowsAreTheDecoder :
    (⟨"writeOperand.indy", 0x5A0000000000, 0xFF3FFFFFFF00⟩ : Row) ∈ opcodeRows ∧
    (⟨"writeOperand.indy", 0x5A0000000000, 0xFF3FFFFFFF00⟩ : Row).admits 0x5AC0000000FF = true ∧
    (⟨"writeOperand.indy", 0x5A0000000000, 0xFF3FFFFFFF00⟩ : Row).admits 0x5B00000000FF = false := by
  decide

theorem witness_ModeNumbers : 11 ≤ (11#4).toNat ∧ 11 ≤ (15#4).toNat := by decide

theorem witness_HighAddressBitsIgnored :
    (0x0000FFFF#32).toNat % 65536 = (0xABCDFFFF#32).toNat % 65536 ∧
    (0x00010000#32).toNat % 65536 = (0x00000000#32).toNat % 65536 := by decide

/-! ### Witnesses: the dispatcher -/

/-- Both ends of a bound range, and the slots beside it. -/
theorem witness_ReadResult :
    (0x0012#16).toNat = (0x00010012#32).toNat % 65536 ∧
    { bare [] with rt := [⟨0x0010, 0x0012, 0x001⟩] }.rt.lookup 0x0012 = some 0x001 ∧
    { bare [] with rt := [⟨0x0010, 0x0012, 0x001⟩] }.rt.lookup 0x0010 = some 0x001 ∧
    (0x0013#16).toNat = (0x00010013#32).toNat % 65536 ∧
    { bare [] with rt := [⟨0x0010, 0x0012, 0x001⟩] }.rt.lookup 0x0013 = none ∧
    (0xFFFF#16).toNat = (0xFFFFFFFF#32).toNat % 65536 ∧
    (base []).rt.lookup 0xFFFF = some 0x001 := by decide

theorem witness_WriteResult :
    (0xFFFF#16).toNat = (0xFFFFFFFF#32).toNat % 65536 ∧
    (base []).wt.lookup 0xFFFF = some 0x001 ∧ (bare []).wt.lookup 0xFFFF = none := by decide

/-- Install ranges that hold one slot, every slot and none; a slot inside and one outside. -/
theorem witness_InstallResult :
    ((0x0030#16).toNat ≤ (0x0030#16).toNat ∧ (0x0030#16).toNat ≤ (0x0030#16).toNat) ∧
    ((0x0000#16).toNat ≤ (0xFFFF#16).toNat ∧ (0xFFFF#16).toNat ≤ (0xFFFF#16).toNat) ∧
    ¬ ((0x0030#16).toNat ≤ (0x0030#16).toNat ∧ (0x0030#16).toNat ≤ (0x002F#16).toNat) := by decide

theorem witness_LastWriterWins :
    runCommands [.installReadHandler 0x2000 0x3FFF 0x003, .installReadHandler 0x2000 0x2007 0x002,
        .installWriteHandler 0x3FFF 0x2000 0x004] (base []) =
      .next (nextOf (runCommands [.installReadHandler 0x2000 0x3FFF 0x003,
        .installReadHandler 0x2000 0x2007 0x002, .installWriteHandler 0x3FFF 0x2000 0x004]
        (base []))) := rfl

theorem witness_BeforeInstallation :
    (∀ a : Word, (bare []).rt.lookup a = none) ∧ (∀ a : Word, (bare []).wt.lookup a = none) ∧
    (∀ a : Word, State.reset.rt.lookup a = none) :=
  ⟨fun _ => rfl, fun _ => rfl, fun _ => rfl⟩

/-! ### Witnesses: the resolver -/

/-- `PC` at both edges, mapped and unmapped. -/
theorem witness_ResolveZeroPageModes :
    (base [0xFF]).rt.lookup (base [0xFF]).pc = some 0x001 ∧
    { base [0xFF] with pc := 0xFFFF }.rt.lookup 0xFFFF = some 0x001 ∧
    (bare [0xFF]).rt.lookup (bare [0xFF]).pc = none := by decide

/-- The operand across the top of the address space; the first, and only the second, byte
unmapped. -/
theorem witness_ResolveAbsoluteModes :
    (0x0000#16).toNat = ({ base [0xFF, 0xFF] with pc := 0xFFFF }.pc.toNat + 1) % 65536 ∧
    { base [0xFF, 0xFF] with pc := 0xFFFF }.rt.lookup 0xFFFF = some 0x001 ∧
    { base [0xFF, 0xFF] with pc := 0xFFFF }.rt.lookup 0x0000 = some 0x001 ∧
    { bare [] with rt := [⟨0x0000, 0x7FFF, 0x001⟩], pc := 0xFFFF }.rt.lookup 0xFFFF = none ∧
    { bare [] with rt := [⟨0x8000, 0xFFFF, 0x001⟩], pc := 0xFFFF }.rt.lookup 0xFFFF = some 0x001 ∧
    { bare [] with rt := [⟨0x8000, 0xFFFF, 0x001⟩], pc := 0xFFFF }.rt.lookup 0x0000 = none := by
  decide

/-- A pointer at 0xFF, its high byte at 0x0000; each of the three reads the first to be unmapped. -/
theorem witness_ResolveIndirectX :
    (0x00FF#16).toNat =
      ((answerAt { base [0xFE] with x := 0x01 } 0).toNat
        + { base [0xFE] with x := 0x01 }.x.toNat) % 256 ∧
    (0x0000#16).toNat = ((0x00FF#16).toNat + 1) % 256 ∧
    (base []).rt.lookup 0x8001 = some 0x001 ∧ (base []).rt.lookup 0x00FF = some 0x001 ∧
    (base []).rt.lookup 0x0000 = some 0x001 ∧
    (bare []).rt.lookup 0x8001 = none ∧
    { bare [] with rt := [⟨0x8000, 0xFFFF, 0x001⟩] }.rt.lookup 0x8001 = some 0x001 ∧
    { bare [] with rt := [⟨0x8000, 0xFFFF, 0x001⟩] }.rt.lookup 0x00FF = none ∧
    { bare [] with rt := [⟨0x00FF, 0xFFFF, 0x001⟩] }.rt.lookup 0x8001 = some 0x001 ∧
    { bare [] with rt := [⟨0x00FF, 0xFFFF, 0x001⟩] }.rt.lookup 0x00FF = some 0x001 ∧
    { bare [] with rt := [⟨0x00FF, 0xFFFF, 0x001⟩] }.rt.lookup 0x0000 = none := by decide

theorem witness_ResolveIndirectY :
    (0x00FF#16).toNat = (answerAt (base [0xFF]) 0).toNat ∧
    (0x0000#16).toNat = ((0x00FF#16).toNat + 1) % 256 ∧
    (base [0xFF]).rt.lookup 0x8001 = some 0x001 ∧ (base [0xFF]).rt.lookup 0x00FF = some 0x001 ∧
    (base [0xFF]).rt.lookup 0x0000 = some 0x001 ∧
    (bare [0xFF]).rt.lookup 0x8001 = none ∧
    { bare [0xFF] with rt := [⟨0x8000, 0xFFFF, 0x001⟩] }.rt.lookup 0x8001 = some 0x001 ∧
    { bare [0xFF] with rt := [⟨0x8000, 0xFFFF, 0x001⟩] }.rt.lookup 0x00FF = none ∧
    { bare [0xFF] with rt := [⟨0x00FF, 0xFFFF, 0x001⟩] }.rt.lookup 0x00FF = some 0x001 ∧
    { bare [0xFF] with rt := [⟨0x00FF, 0xFFFF, 0x001⟩] }.rt.lookup 0x0000 = none := by decide

/-- Immediate, which reads nothing, with nothing mapped; IndirectY with all mapped. -/
theorem witness_ResolveFollowsTheSummary :
    Mode.immediate.resolvable = true ∧
    allMapped (bare []) (Mode.immediate.addressesRead (bare [])) = true ∧
    Mode.indirectY.resolvable = true ∧
    allMapped (base [0xFF]) (Mode.indirectY.addressesRead (base [0xFF])) = true := by decide

/-- The first and the last address of a list the first to be unmapped. -/
theorem witness_ResolveReportsTheFirstUnmappedRead :
    (Mode.zeroPage.addressesRead (bare []))[0]? = some 0x8001 ∧
    allMapped (bare []) ((Mode.zeroPage.addressesRead (bare [])).take 0) = true ∧
    (bare []).rt.lookup 0x8001 = none ∧
    (Mode.indirectY.addressesRead { bare [0xFF] with rt := [⟨0x00FF, 0xFFFF, 0x001⟩] })[2]?
      = some 0x0000 ∧
    allMapped { bare [0xFF] with rt := [⟨0x00FF, 0xFFFF, 0x001⟩] }
      ((Mode.indirectY.addressesRead
        { bare [0xFF] with rt := [⟨0x00FF, 0xFFFF, 0x001⟩] }).take 2) = true ∧
    { bare [0xFF] with rt := [⟨0x00FF, 0xFFFF, 0x001⟩] }.rt.lookup 0x0000 = none := by decide

theorem witness_UnimplementedModes : (base []).ea = none ∧ (bare []).ea = none := by decide

/-! ### Witnesses: the operand accessor -/

/-- AbsoluteX at its largest address, 0xFFFF + 0xFF, accessed at 0x00FE. -/
theorem witness_ReadOperandFirstAccess :
    (Instr.readOperandAbsx true false).readDescriptor = some ⟨.absoluteX, true, false⟩ ∧
    Mode.absoluteX.resolvable = true ∧
    { base [0xFF, 0xFF, 0x50] with x := 0xFF }.ea = none ∧
    allMapped { base [0xFF, 0xFF, 0x50] with x := 0xFF }
      (Mode.absoluteX.addressesRead { base [0xFF, 0xFF, 0x50] with x := 0xFF }) = true ∧
    (0x00FE#16).toNat =
      Mode.absoluteX.result { base [0xFF, 0xFF, 0x50] with x := 0xFF } % 65536 ∧
    { base [0xFF, 0xFF, 0x50] with x := 0xFF }.rt.lookup 0x00FE = some 0x001 := by decide

/-- In mode None, at the largest memoized address. -/
theorem witness_ReadOperandMemoized :
    (Instr.readOperandNone false false).readDescriptor = some ⟨.none, false, false⟩ ∧
    (Mode.none : Mode) ≠ .direct ∧ { base [] with ea := some 0x100FE }.ea = some 0x100FE ∧
    (0x00FE#16).toNat = (0x100FE#17).toNat % 65536 ∧
    { base [] with ea := some 0x100FE }.rt.lookup 0x00FE = some 0x001 := by decide

/-- Immediate with nothing mapped; a memoized address with nothing mapped. -/
theorem witness_ReadOperandFinalFault :
    (Instr.readOperandImm false false).readDescriptor = some ⟨.immediate, false, false⟩ ∧
    (bare []).rt.lookup 0x8001 = none ∧ Mode.immediate.resolvable = true ∧ (bare []).ea = none ∧
    allMapped (bare []) (Mode.immediate.addressesRead (bare [])) = true ∧
    (0x8001#16).toNat = Mode.immediate.result (bare []) % 65536 ∧
    Mode.immediate ≠ .direct ∧ { bare [] with ea := some 0x18001 }.ea = some 0x18001 ∧
    (0x8001#16).toNat = (0x18001#17).toNat % 65536 := by decide

theorem witness_ResolveFaultEndsTheCommand :
    (Instr.writeOperandZp false true 0x55).descriptor = some ⟨.zeroPage, false, true⟩ ∧
    Mode.zeroPage ≠ .direct ∧ (bare []).ea = none ∧
    resolve ⟨.zeroPage, false, true⟩ (bare []) =
      .raised (.unmappedRead 0x8001 (faulted 1 0x8001 (bare []))) :=
  ⟨by decide, by decide, by decide, rfl⟩

theorem witness_WriteOperandFirstAccess :
    (Instr.writeOperandIndy true false 0x99).writeDescriptor =
      some (⟨.indirectY, true, false⟩, 0x99) ∧
    Mode.indirectY.resolvable = true ∧ (base [0xFF, 0xF0, 0x20]).ea = none ∧
    allMapped (base [0xFF, 0xF0, 0x20])
      (Mode.indirectY.addressesRead (base [0xFF, 0xF0, 0x20])) = true := by decide

theorem witness_WriteOperandMemoized :
    (Instr.writeOperandOutside 15 false true 0x12).writeDescriptor =
      some (⟨.outside 15, false, true⟩, 0x12) ∧
    Mode.outside 15 ≠ .direct ∧ { base [] with ea := some 0x100FE }.ea = some 0x100FE := by decide

theorem witness_StoreAtTheOperand :
    (0x00FE#16).toNat = (0x100FE#17).toNat % 65536 ∧
    { base [] with lr := some 0x5A }.lr = some 0x5A ∧ (base []).lr = none := by decide

theorem witness_SingleResolution :
    insideInstruction [.readOperandAbs false true, .writeOperandZp false true 0x41] ∧
    { base [0x40] with ea := some 0x02006 }.ea = some 0x02006 ∧
    runCommands [.readOperandAbs false true, .writeOperandZp false true 0x41]
        { base [0x40] with ea := some 0x02006 } =
      .next (nextOf (runCommands [.readOperandAbs false true, .writeOperandZp false true 0x41]
        { base [0x40] with ea := some 0x02006 })) :=
  ⟨by unfold insideInstruction; decide, by decide, rfl⟩

theorem witness_IdempotentAddress :
    (∀ i ∈ [Instr.readOperandAbs false true, Instr.writeOperandZp false true 0x41],
      i.descriptor ≠ none) ∧
    { base [0x40] with ea := some 0x02006 }.ea = some 0x02006 ∧
    runCommands [.readOperandAbs false true, .writeOperandZp false true 0x41]
        { base [0x40] with ea := some 0x02006 } =
      .next (nextOf (runCommands [.readOperandAbs false true, .writeOperandZp false true 0x41]
        { base [0x40] with ea := some 0x02006 })) :=
  ⟨by decide, by decide, rfl⟩

/-- A run that resolves, at the top of the address space; and one that resolves nothing. -/
theorem witness_PcAdvancesByTheMode :
    insideInstruction [.readOperandAbs false true, .push 0x01, .writeOperandAbs false true 0x41] ∧
    carriesDescriptor ⟨.absolute, false, true⟩
      [.readOperandAbs false true, .push 0x01, .writeOperandAbs false true 0x41] ∧
    { base [0x06, 0x20, 0x40] with pc := 0xFFFF }.ea = none ∧
    runCommands [.readOperandAbs false true, .push 0x01, .writeOperandAbs false true 0x41]
        { base [0x06, 0x20, 0x40] with pc := 0xFFFF } =
      .next (nextOf (runCommands
        [.readOperandAbs false true, .push 0x01, .writeOperandAbs false true 0x41]
        { base [0x06, 0x20, 0x40] with pc := 0xFFFF })) ∧
    insideInstruction [.readOperandDir false true] ∧
    carriesDescriptor ⟨.direct, false, true⟩ [.readOperandDir false true] ∧
    runCommands [.readOperandDir false true] (base []) =
      .next (nextOf (runCommands [.readOperandDir false true] (base []))) := by
  refine ⟨by unfold insideInstruction; decide, ?_, rfl, rfl, by unfold insideInstruction; decide,
    ?_, rfl⟩ <;> simp [carriesDescriptor, Instr.descriptor, Instr.readDescriptor,
      Instr.writeDescriptor]

/-- A read-modify-write instruction, and the next one's. -/
theorem witness_ReadBeforeStoreDrawsNothing :
    readBeforeStore [.readOperandZp false true, .writeOperandZp false true 0x80,
      .resetForNextInstruction, .writeOperandZp false false 0x11]
      (base [0x44, 0x7F, 0x45, 0x00]).lr.isSome = true ∧
    runCommands [.readOperandZp false true, .writeOperandZp false true 0x80,
        .resetForNextInstruction, .writeOperandZp false false 0x11]
        (base [0x44, 0x7F, 0x45, 0x00]) =
      .next (nextOf (runCommands [.readOperandZp false true, .writeOperandZp false true 0x80,
        .resetForNextInstruction, .writeOperandZp false false 0x11]
        (base [0x44, 0x7F, 0x45, 0x00]))) ∧
    (nextOf (runCommands [.readOperandZp false true, .writeOperandZp false true 0x80,
        .resetForNextInstruction, .writeOperandZp false false 0x11]
        (base [0x44, 0x7F, 0x45, 0x00]))).answers ≠ [] :=
  ⟨by decide, rfl, by decide⟩

/-! ### Witnesses: the stack unit -/

theorem witness_PushResult :
    (0x0100#16).toNat = 0x100 + { base [] with sp := 0x00 }.sp.toNat ∧
    (0x01FF#16).toNat = 0x100 + { base [] with sp := 0xFF }.sp.toNat := by decide

theorem witness_PopResult :
    (0x0100#16).toNat = 0x100 + ({ base [] with sp := 0xFF }.sp.toNat + 1) % 256 ∧
    (base []).rt.lookup 0x0100 = some 0x001 ∧ (bare []).rt.lookup 0x0100 = none := by decide

theorem witness_PushWordResult :
    (0x0100#16).toNat = 0x100 + { base [] with sp := 0x00 }.sp.toNat ∧
    (0x01FF#16).toNat = 0x100 + ({ base [] with sp := 0x00 }.sp.toNat + 255) % 256 := by decide

theorem witness_PopWordResult :
    (0x01FF#16).toNat = 0x100 + ({ base [] with sp := 0xFE }.sp.toNat + 1) % 256 ∧
    (0x0100#16).toNat = 0x100 + ({ base [] with sp := 0xFE }.sp.toNat + 2) % 256 ∧
    (base []).rt.lookup 0x01FF = some 0x001 ∧ (base []).rt.lookup 0x0100 = some 0x001 ∧
    (bare []).rt.lookup 0x01FF = none ∧
    { bare [] with rt := [⟨0x01FF, 0x01FF, 0x001⟩] }.rt.lookup 0x01FF = some 0x001 ∧
    { bare [] with rt := [⟨0x01FF, 0x01FF, 0x001⟩] }.rt.lookup 0x0100 = none := by decide

/-- The word case across the wrap, with a handler that answers what was written. -/
theorem witness_StackRoundTrip_word :
    let s := { base [0x34, 0x12] with sp := 0x00 }
    let t := nextOf (exec (.pushWord 0x1234) s)
    let u := nextOf (exec .popWord t)
    (0x0100#16).toNat = 0x100 + s.sp.toNat ∧ (0x01FF#16).toNat = 0x100 + (s.sp.toNat + 255) % 256 ∧
    s.wt.lookup 0x0100 ≠ none ∧ s.wt.lookup 0x01FF ≠ none ∧
    exec (.pushWord 0x1234) s = .next t ∧ exec .popWord t = .next u ∧
    storesAt 0x0100 (t.bus.drop s.bus.length) (u.bus.drop t.bus.length) ∧
    storesAt 0x01FF (t.bus.drop s.bus.length) (u.bus.drop t.bus.length) := by
  refine ⟨by decide, by decide, by decide, by decide, rfl, rfl, fun v h b k => ?_, fun v h b k => ?_⟩
  · exact (Option.some.inj k).symm.trans (Option.some.inj h)
  · exact (Option.some.inj k).symm.trans (Option.some.inj h)

theorem witness_StackRoundTrip_byte :
    let s := { base [0xAB] with sp := 0x00 }
    let t := nextOf (exec (.push 0xAB) s)
    let u := nextOf (exec .pop t)
    (0x0100#16).toNat = 0x100 + s.sp.toNat ∧ s.wt.lookup 0x0100 ≠ none ∧
    exec (.push 0xAB) s = .next t ∧ exec .pop t = .next u ∧
    storesAt 0x0100 (t.bus.drop s.bus.length) (u.bus.drop t.bus.length) := by
  refine ⟨by decide, by decide, rfl, rfl, fun v h b k => ?_⟩
  exact (Option.some.inj k).symm.trans (Option.some.inj h)

/-- Each of the four commands completes somewhere; `pop` and `popWord` fault somewhere. -/
theorem witness_StackStaysInItsPage :
    exec .pop (base []) = .next (nextOf (exec .pop (base []))) ∧
    exec .popWord (base []) = .next (nextOf (exec .popWord (base []))) ∧
    exec (.push 0xAB) (base []) = .next (nextOf (exec (.push 0xAB) (base []))) ∧
    exec (.pushWord 0xABCD) (base []) = .next (nextOf (exec (.pushWord 0xABCD) (base []))) ∧
    exec .pop (bare []) = .fault (raiseUnmappedRead 0x01FE { bare [] with sp := 0xFE }) :=
  ⟨rfl, rfl, rfl, rfl, rfl⟩

/-! ### Witnesses: faults, the response, the whole machine -/

/-- A fault of either code. -/
theorem witness_FaultEntry :
    exec (.read 0x1234) (bare []) = .fault (raiseUnmappedRead 0x1234 (bare [])) ∧
    exec (.readOperandNone false false) (base []) = .fault (raiseUnimplementedMode 0 (base [])) :=
  ⟨rfl, rfl⟩

theorem witness_FaultCauses :
    exec (.read 0x1234) (bare []) = .fault (raiseUnmappedRead 0x1234 (bare [])) ∧
    exec (.writeOperandOutside 15 false false 0x01) (base []) =
      .fault (raiseUnimplementedMode 15 (base [])) :=
  ⟨rfl, rfl⟩

/-- The last clause: a store in mode None at a memoized address. -/
theorem witness_NoFaultFromStores :
    (Instr.writeOperandNone false true 0x12).writeDescriptor ≠ none ∧
    { bare [] with ea := some 0x00044 }.ea ≠ none := by decide

theorem witness_ResponseOfACommand :
    (base [0xFF]).fault = none ∧
    exec (.read 0x1234) (base [0xFF]) = .next (nextOf (exec (.read 0x1234) (base [0xFF]))) ∧
    exec .pop (base [0xFF]) = .next (nextOf (exec .pop (base [0xFF]))) ∧
    (Instr.readOperandDir false false).readDescriptor ≠ none ∧
    exec (.readOperandDir false false) (base []) =
      .next (nextOf (exec (.readOperandDir false false) (base []))) ∧
    exec .popWord (base [0xFF, 0xFF]) = .next (nextOf (exec .popWord (base [0xFF, 0xFF]))) ∧
    exec (.push 0xAB) (base []) = .next (nextOf (exec (.push 0xAB) (base []))) :=
  ⟨by decide, rfl, rfl, by decide, rfl, rfl, rfl⟩

/-- A command that memoizes the largest address, a reset, and another act. -/
theorem witness_StepKeepsTheInvariant :
    let s := { base [0xFF, 0xFF, 0x50] with
      y := 0xFF, inputs := [.command 0x488000000000, .reset, .setY 0x00] }
    s.inv = true ∧ step s = .next (nextOf (step s)) ∧ (nextOf (step s)).ea = some 0x100FE ∧
    step (nextOf (step s)) = .next (nextOf (step (nextOf (step s)))) :=
  ⟨by decide, rfl, by decide, rfl⟩

theorem witness_WhoWritesWhat :
    exec (.push 0xAB) (base []) = .next (nextOf (exec (.push 0xAB) (base []))) ∧
    (Instr.push 0xAB).descriptor = none ∧ Instr.push 0xAB ≠ .resetForNextInstruction ∧
    exec (.writeOperandImm false false 0x5A) (base []) =
      .next (nextOf (exec (.writeOperandImm false false 0x5A) (base []))) ∧
    (Instr.writeOperandImm false false 0x5A).readDescriptor = none :=
  ⟨rfl, by decide, by decide, rfl, by decide⟩

/-- A command that charges the cycle, and a step that adds to the counter. -/
theorem witness_CyclesOnlyFromThePenalty :
    exec (.readOperandAbsx true false) { base [0xFF, 0x20, 0x5A] with x := 0x01 } =
      .next (nextOf (exec (.readOperandAbsx true false) { base [0xFF, 0x20, 0x5A] with x := 0x01 })) ∧
    (nextOf (exec (.readOperandAbsx true false) { base [0xFF, 0x20, 0x5A] with x := 0x01 })).cyc
      = 101 ∧
    step { base [] with inputs := [.addCyc 4] } =
      .next (nextOf (step { base [] with inputs := [.addCyc 4] })) :=
  ⟨rfl, by decide, rfl⟩

theorem witness_BusEventsGoToTheBoundHandler :
    let s := { base [] with inputs := [.command 0xA00000001234], sp := 0x00 }
    step s = .next (nextOf (step s)) ∧
    (nextOf (step s)).bus = [.write 0x001 0x0100 0x12, .write 0x001 0x01FF 0x34] :=
  ⟨rfl, by decide⟩

/-- The memo kept, cleared by the boundary, cleared by a reset. -/
theorem witness_MemoNeverChanges :
    let s := { base [0x40] with ea := some 0x02006 }
    s.ea = some 0x02006 ∧
    step { s with inputs := [.command 0x444000000000] } =
      .next (nextOf (step { s with inputs := [.command 0x444000000000] })) ∧
    step { s with inputs := [.command 0x600000000000] } =
      .next (nextOf (step { s with inputs := [.command 0x600000000000] })) ∧
    step { s with inputs := [.reset] } = .next (nextOf (step { s with inputs := [.reset] })) :=
  ⟨rfl, rfl, rfl, rfl⟩

/-- A zero-page mode at its largest address; IndirectY at its largest, the sum masked. -/
theorem witness_MemoizedAddressRange :
    (Instr.readOperandZp false false).descriptor = some ⟨.zeroPage, false, false⟩ ∧
    exec (.readOperandZp false false) (base [0xFF, 0x12]) =
      .next (nextOf (exec (.readOperandZp false false) (base [0xFF, 0x12]))) ∧
    (base [0xFF, 0x12]).ea = none ∧
    (nextOf (exec (.readOperandZp false false) (base [0xFF, 0x12]))).ea = some 0x000FF ∧
    exec (.readOperandIndy false false) { base [0x10, 0x00, 0xFF] with y := 0xFF } =
      .next (nextOf (exec (.readOperandIndy false false)
        { base [0x10, 0x00, 0xFF] with y := 0xFF })) ∧
    (nextOf (exec (.readOperandIndy false false) { base [0x10, 0x00, 0xFF] with y := 0xFF })).ea
      = some 0x0FFFF :=
  ⟨by decide, rfl, by decide, by decide, rfl, by decide⟩

theorem witness_MemoWinsOverTheRegisters :
    let s := { base [0x5A] with ea := some 0x02100 }
    (Instr.readOperandAbsx true false).descriptor ≠ none ∧ s.ea ≠ none ∧
    exec (.readOperandAbsx true false) s = .next (nextOf (exec (.readOperandAbsx true false) s)) :=
  ⟨by decide, by decide, rfl⟩

theorem witness_WordCommandsAreTwoByteCommands :
    let s := { base [0x34, 0x12] with sp := 0xFE }
    exec .pop s = .next (nextOf (exec .pop s)) ∧
    exec .pop (nextOf (exec .pop s)) = .next (nextOf (exec .pop (nextOf (exec .pop s)))) :=
  ⟨rfl, rfl⟩

/-- The invariant is met by a state no run reaches, too. -/
theorem witness_ResetMeetsTheInvariant :
    { base [] with rt := [⟨3, 3, 1⟩, ⟨4, 4, 2⟩], ea := some 0x100FE, lr := some 0 }.inv = true ∧
    { base [] with rt := [⟨3, 3, 1⟩, ⟨4, 4, 1⟩] }.inv = false ∧
    { base [] with ea := some 0x100FF }.inv = false ∧
    { base [] with lr := some 0 }.inv = false := by decide

end Sys2Proof.Tests
end

section
/-! SUPPORT. The words that select no command (30_encoding.md R93, R94, R96): which words the decoder
refuses, and what the command port answers to a word it does not accept. -/

namespace Sys2Proof

/-! ### The decoder's refusals -/

theorem CmdWord.op_toNat_eq_div (w : CmdWord) : w.op.toNat = w.toNat / 2 ^ 44 := by
  have := w.isLt
  rw [CmdWord.op_toNat]
  omega

/-- R93: the formats give reserved bits to every `OP` but these. -/
theorem CmdWord.reservedOk_eq_none_iff (w : CmdWord) :
    w.reservedOk = none ↔ w.op.toNat = 7 ∨ 12 ≤ w.op.toNat := by
  have hlt := w.op.isLt
  unfold CmdWord.reservedOk
  generalize w.op.toNat = k at hlt ⊢
  interval_cases k <;> simp

theorem decode_eq_reservedOp_iff (w : CmdWord) :
    (∃ op, decode w = .error (.reservedOp op)) ↔ w.reservedOk = none := by
  unfold decode
  split <;> simp [*]

theorem decode_eq_reservedBits {w : CmdWord} (h : w.reservedOk = some false) :
    decode w = .error (.reservedBits w.op) := by
  simp only [decode, h]

/-- R94 for one format: a word whose `OP` is `k`, where the format of `k` has `n` reserved bits from
bit `lo` up, and not all of them 0. -/
theorem decode_of_reserved_bit_set {w : CmdWord} {k : Nat} (lo n : Nat)
    (hop : w.toNat / 2 ^ 44 = k)
    (hformat : w.op.toNat = k → w.reservedOk = some (w.zeroBits lo n))
    (hbits : w.toNat / 2 ^ lo % 2 ^ n ≠ 0) :
    decode w = .error (.reservedBits (BitVec.ofNat 4 k)) := by
  have hk : w.op.toNat = k := by rw [CmdWord.op_toNat_eq_div, hop]
  have hclash : w.reservedOk = some false := by
    rw [hformat hk, CmdWord.zeroBits_eq, decide_eq_false hbits]
  rw [decode_eq_reservedBits hclash, ← hk, BitVec.ofNat_toNat, BitVec.setWidth_eq]

/-- `decode_of_reserved_bit_set` where the reserved bits reach down to bit 0. -/
theorem decode_of_low_reserved_bit_set {w : CmdWord} {k : Nat} (n : Nat)
    (hop : w.toNat / 2 ^ 44 = k)
    (hformat : w.op.toNat = k → w.reservedOk = some (w.zeroBits 0 n))
    (hbits : w.toNat % 2 ^ n ≠ 0) :
    decode w = .error (.reservedBits (BitVec.ofNat 4 k)) :=
  decode_of_reserved_bit_set 0 n hop hformat (by rwa [Nat.pow_zero, Nat.div_one])

/-- Settles O10: the reserved `OP`s by the decoder's `none`, and each assigned `OP` by the field its
format reserves. -/
theorem reservedWordsRefused : Obligations.ReservedWordsRefused := by
  intro w
  refine ⟨?reservedOp,
    fun hop => decode_of_low_reserved_bit_set 12 hop ?read,
    fun hop => decode_of_reserved_bit_set 8 4 hop ?write,
    fun hop => decode_of_low_reserved_bit_set 38 hop ?readOperand,
    fun hop => decode_of_reserved_bit_set 8 30 hop ?writeOperand,
    fun hop => decode_of_low_reserved_bit_set 44 hop ?resetForNextInstruction,
    fun hop => decode_of_reserved_bit_set 8 36 hop ?push,
    fun hop => decode_of_low_reserved_bit_set 44 hop ?pop,
    fun hop => decode_of_reserved_bit_set 16 28 hop ?pushWord,
    fun hop => decode_of_low_reserved_bit_set 44 hop ?popWord⟩
  case reservedOp =>
    rw [decode_eq_reservedOp_iff, CmdWord.reservedOk_eq_none_iff, CmdWord.op_toNat_eq_div]
  all_goals exact fun h => by simp only [CmdWord.reservedOk, h]

end Sys2Proof

namespace Sys2Proof.Machine

/-! ### The command port's refusals -/

theorem fetch_command {s : State} {w : CmdWord} {rest : List Input}
    (h : s.inputs = .command w :: rest) : fetch s = present w { s with inputs := rest } := by
  simp only [fetch, h]

theorem step_of_fetch_refused {s : State} {r : Refusal} (h : fetch s = .refused r) :
    step s = .refused r := by
  simp only [step, h]

theorem present_of_decode_error {s : State} {w : CmdWord} {e : Reject} (hf : s.fault = none)
    (he : decode w = .error e) : present w s = .refused (.malformed e) := by
  simp only [present, hf, he]

theorem present_of_faulted {s : State} (w : CmdWord) (hf : s.fault ≠ none) :
    present w s = .refused .blockFaulted := by
  obtain ⟨f, hf⟩ := Option.ne_none_iff_exists'.mp hf
  simp only [present, hf]

/-- Settles O5: the two refusals of the command port, each carried through the fetch to the step. -/
theorem refusedWords : Obligations.RefusedWords := by
  intro s w rest hin
  refine ⟨fun e hf he => step_of_fetch_refused ?_, fun hf => step_of_fetch_refused ?_⟩
  · rw [fetch_command hin]
    exact present_of_decode_error hf he
  · rw [fetch_command hin]
    exact present_of_faulted w hf

end Sys2Proof.Machine
end

section
/-! SUPPORT. The dispatcher's four commands (40_dispatcher.md R110 to R113): each is one shared
operation of the dispatcher and its response, and the laws of that operation say the rest. -/

namespace Sys2Proof.Machine

/-! ### The commands by their operation -/

theorem exec_read (addr : RawAddr) (s : State) :
    exec (.read addr) s = completeByte (memRead addr s) := rfl

theorem exec_write (addr : RawAddr) (v : Byte) (s : State) :
    exec (.write addr v) s = .next { memWrite addr v s with rsp := none } := rfl

theorem exec_installReadHandler (start stop : Word) (h : HandlerId) (s : State) :
    exec (.installReadHandler start stop h) s =
      .next { s with rt := s.rt.install start stop h, rsp := none } := rfl

theorem exec_installWriteHandler (start stop : Word) (h : HandlerId) (s : State) :
    exec (.installWriteHandler start stop h) s =
      .next { s with wt := s.wt.install start stop h, rsp := none } := rfl

/-! ### The store, by what the slot holds -/

theorem memWrite_mapped {addr : RawAddr} {v : Byte} {s : State} {h : HandlerId}
    (hm : s.wt.lookup (maskAddr addr) = some h) :
    memWrite addr v s = busWrite h (maskAddr addr) v s := by
  simp only [memWrite, hm]

theorem memWrite_unmapped {addr : RawAddr} {v : Byte} {s : State}
    (hm : s.wt.lookup (maskAddr addr) = none) : memWrite addr v s = s := by
  simp only [memWrite, hm]

/-! ### The results -/

/-- Settles O16: each command installs in its own table, and `Table.lookup_install` says what every
slot holds after that, whether or not the table was in canonical form. -/
theorem installResult : Obligations.InstallResult := by
  intro start stop h s
  exact ⟨⟨_, exec_installReadHandler start stop h s, Table.lookup_install start stop h s.rt⟩,
    ⟨_, exec_installWriteHandler start stop h s, Table.lookup_install start stop h s.wt⟩⟩

/-- Settles O14: the read at the masked address, by what its slot holds. -/
theorem readResult : Obligations.ReadResult := by
  intro addr a s ha
  obtain rfl := maskAddr_of addr a ha
  refine ⟨fun h hbound => ?bound, fun hdefault => ?default⟩
  case bound => rw [exec_read, memRead_mapped hbound]; rfl
  case default => rw [exec_read, memRead_unmapped hdefault]; rfl

/-- Settles O15: the store at the masked address, by what its slot holds. -/
theorem writeResult : Obligations.WriteResult := by
  intro addr a v s ha
  obtain rfl := maskAddr_of addr a ha
  refine ⟨fun h hbound => ?bound, fun hdefault => ?default⟩
  case bound => rw [exec_write, memWrite_mapped hbound]; rfl
  case default => rw [exec_write, memWrite_unmapped hdefault]

end Sys2Proof.Machine
end

section
/-! SUPPORT. The EffectiveAddressResolver (41_resolver.md): its adders in natural-number arithmetic,
its fetches as reads one after the other, and its modes as a fetch and an addition. -/

namespace Sys2Proof.Machine

/-! ### The adders (R131) -/

theorem zext_toNat (b : Byte) : (zext b).toNat = b.toNat := by
  simp only [zext, BitVec.toNat_setWidth]
  omega

theorem cat_toNat (hi lo : Byte) : (cat hi lo).toNat = wordOf lo hi := by
  rw [cat, append_toNat, wordOf]
  omega

theorem add8_toNat (b i : Byte) : (add8 b i).toNat = (b.toNat + i.toNat) % 256 :=
  BitVec.toNat_add b i

theorem inc8_toNat (b : Byte) : (inc8 b).toNat = (b.toNat + 1) % 256 :=
  BitVec.toNat_add b 1#8

/-- No carry is lost: the sum needs 17 bits at most. -/
theorem add17_toNat (w : Word) (i : Byte) : (add17 w i).toNat = w.toNat + i.toNat := by
  simp only [add17, BitVec.toNat_add, BitVec.toNat_setWidth]
  omega

theorem add16_toNat (w : Word) (i : Byte) :
    (add16 w i).toNat = (w.toNat + i.toNat) % 65536 := by
  simp only [add16, BitVec.toNat_add, BitVec.toNat_setWidth]
  omega

theorem pageOf_toNat (w : Word) : (pageOf w).toNat = w.toNat / 256 := by
  rw [pageOf, extract_toNat]
  omega

theorem cross_iff_page_ne (w : Word) (i : Byte) :
    cross w i = true ↔ w.toNat / 256 ≠ (w.toNat + i.toNat) % 65536 / 256 := by
  have hsum : (pageOf (w + i.setWidth 16)).toNat = (w.toNat + i.toNat) % 65536 / 256 := by
    rw [pageOf_toNat, ← add16_toNat, add16]
  rw [cross, bne_iff_ne, ne_eq, BitVec.toNat_eq, pageOf_toNat, hsum]

/-- R133: an index is less than a page, so the addition crosses exactly when the low
byte carries. -/
theorem cross_iff_carry (w : Word) (i : Byte) :
    cross w i = true ↔ 256 ≤ w.toNat % 256 + i.toNat := by
  rw [cross_iff_page_ne]
  omega

theorem penalty_eq (w : Word) (i : Byte) (pbp : Bool) (s : State) :
    penalty w i pbp s =
      { s with cyc := s.cyc + if pbp = true ∧ 256 ≤ w.toNat % 256 + i.toNat then 1 else 0 } := by
  simp only [penalty, Bool.and_eq_true, cross_iff_carry]
  split <;> rfl

/-- The penalty against a word of two bytes looks at the low one only. -/
theorem penalty_cat (hi lo i : Byte) (pbp : Bool) (s : State) :
    penalty (cat hi lo) i pbp s =
      { s with cyc := s.cyc + if pbp = true ∧ 256 ≤ lo.toNat + i.toNat then 1 else 0 } := by
  have hlow : (cat hi lo).toNat % 256 = lo.toNat := by
    rw [cat_toNat, wordOf]
    omega
  rw [penalty_eq, hlow]

/-- Settles O19: one law for each operation of the adder, and the penalty by the carry. -/
theorem Resolver.adderAndPenalty : Obligations.AdderAndPenalty := by
  intro b i hi lo w pbp s
  exact ⟨zext_toNat b, cat_toNat hi lo, add8_toNat b i, inc8_toNat b, add17_toNat w i,
    add16_toNat w i, cross_iff_page_ne w i, penalty_eq w i pbp s⟩

/-! ### Addresses as numbers -/

theorem pc_advanced (pc : Word) (n : Nat) :
    BitVec.ofNat 16 (pc.toNat + n) = pc + BitVec.ofNat 16 n := by
  rw [BitVec.ofNat_add, BitVec.ofNat_toNat, BitVec.setWidth_eq]

theorem pc_second {pc pc1 : Word} (h : pc1.toNat = (pc.toNat + 1) % 65536) : pc1 = pc + 1#16 :=
  BitVec.eq_of_toNat_eq (h.trans (BitVec.toNat_add pc 1#16).symm)

/-- A zero-page address is its byte. -/
theorem zeroPage_eq {a : Word} {p : Byte} (h : a.toNat = p.toNat) : a = p.setWidth 16 := by
  apply BitVec.eq_of_toNat_eq
  rw [h, BitVec.toNat_setWidth]
  omega

theorem effAddr_eq {e : EffAddr} {n : Nat} (h : e.toNat = n) : e = BitVec.ofNat 17 n := by
  rw [← h, BitVec.ofNat_toNat, BitVec.setWidth_eq]

theorem word_effAddr (w : Word) : w.setWidth 17 = BitVec.ofNat 17 w.toNat :=
  (BitVec.ofNat_toNat 17 w).symm

theorem zext_effAddr (b : Byte) : zext b = BitVec.ofNat 17 b.toNat :=
  effAddr_eq (zext_toNat b)

theorem zext_add8_effAddr (b i : Byte) :
    zext (add8 b i) = BitVec.ofNat 17 ((b.toNat + i.toNat) % 256) := by
  rw [zext_effAddr, add8_toNat]

theorem cat_effAddr (hi lo : Byte) : (cat hi lo).setWidth 17 = BitVec.ofNat 17 (wordOf lo hi) := by
  rw [word_effAddr, cat_toNat]

theorem add17_cat_effAddr (hi lo i : Byte) :
    add17 (cat hi lo) i = BitVec.ofNat 17 (wordOf lo hi + i.toNat) :=
  effAddr_eq (by rw [add17_toNat, cat_toNat])

theorem add16_cat_effAddr (hi lo i : Byte) :
    (add16 (cat hi lo) i).setWidth 17 =
      BitVec.ofNat 17 ((wordOf lo hi + i.toNat) % 65536) := by
  rw [word_effAddr, add16_toNat, cat_toNat]

/-! ### The fetches -/

@[simp] theorem reading_x (s : State) (n : Nat) (pc : Word) (events : List BusEvent) :
    (reading s n pc events).x = s.x := rfl

@[simp] theorem reading_y (s : State) (n : Nat) (pc : Word) (events : List BusEvent) :
    (reading s n pc events).y = s.y := rfl

section Fetches

variable {s : State} {h0 h1 : HandlerId}

theorem nextByte_mapped (hm : s.rt.lookup s.pc = some h0) :
    nextByte s = .done (answerAt s 0)
      (reading s 1 (s.pc + 1#16) [.read h0 s.pc (answerAt s 0)]) := by
  conv_lhs => rw [← reading_zero s]
  exact nextByte_reading 0 [] hm

theorem nextByte_unmapped (hm : s.rt.lookup s.pc = none) :
    nextByte s = .raised (.unmappedRead s.pc (faulted 1 s.pc s)) := by
  rw [nextByte, memRead_unmapped (by rwa [maskAddr_word]), maskAddr_word]
  rfl

/-- R134: both operand bytes, the low one first. -/
theorem nextWord_mapped (hm0 : s.rt.lookup s.pc = some h0)
    (hm1 : s.rt.lookup (s.pc + 1#16) = some h1) :
    nextWord s = .done (cat (answerAt s 1) (answerAt s 0))
      (reading s 2 (s.pc + 2#16)
        [.read h0 s.pc (answerAt s 0), .read h1 (s.pc + 1#16) (answerAt s 1)]) := by
  have hpc : s.pc + 1#16 + 1#16 = s.pc + 2#16 := BitVec.add_assoc s.pc 1#16 1#16
  rw [nextWord, nextByte_mapped hm0, andThen_done, nextByte_reading 1 _ hm1, andThen_done, hpc]
  rfl

theorem nextWord_low_unmapped (hm : s.rt.lookup s.pc = none) :
    nextWord s = .raised (.unmappedRead s.pc (faulted 1 s.pc s)) := by
  rw [nextWord, nextByte_unmapped hm, andThen_raised]

theorem nextWord_high_unmapped (hm0 : s.rt.lookup s.pc = some h0)
    (hm1 : s.rt.lookup (s.pc + 1#16) = none) :
    nextWord s = .raised (.unmappedRead (s.pc + 1#16) (faulted 1 (s.pc + 1#16)
      { skipAnswers s 1 with bus := s.bus ++ [.read h0 s.pc (answerAt s 0)] })) := by
  rw [nextWord, nextByte_mapped hm0, andThen_done, nextByte_reading_unmapped 1 _ hm1,
    andThen_raised]

/-! A pointer read after `n` answered reads: its low byte at `p`, its high byte at `INC8(p)`. -/

variable (n : Nat) (pc : Word) (events : List BusEvent) {p : Byte}

theorem readPointer_reading (hm0 : s.rt.lookup (p.setWidth 16) = some h0)
    (hm1 : s.rt.lookup ((inc8 p).setWidth 16) = some h1) :
    readPointer p (reading s n pc events) =
      .done (cat (answerAt s (n + 1)) (answerAt s n))
        (reading s (n + 2) pc (events ++ [.read h0 (p.setWidth 16) (answerAt s n)] ++
          [.read h1 ((inc8 p).setWidth 16) (answerAt s (n + 1))])) := by
  rw [readPointer, memRead_reading n pc _ _ hm0 (maskAddr_byte p), andThen_done,
    memRead_reading (n + 1) pc _ _ hm1 (maskAddr_byte _), andThen_done]

theorem readPointer_reading_low_unmapped (hm : s.rt.lookup (p.setWidth 16) = none) :
    readPointer p (reading s n pc events) =
      .raised (.unmappedRead (p.setWidth 16) (faulted 1 (p.setWidth 16)
        { skipAnswers s n with bus := s.bus ++ events })) := by
  rw [readPointer, memRead_reading_unmapped n pc _ _ hm (maskAddr_byte p), andThen_raised]

theorem readPointer_reading_high_unmapped (hm0 : s.rt.lookup (p.setWidth 16) = some h0)
    (hm1 : s.rt.lookup ((inc8 p).setWidth 16) = none) :
    readPointer p (reading s n pc events) =
      .raised (.unmappedRead ((inc8 p).setWidth 16) (faulted 1 ((inc8 p).setWidth 16)
        { skipAnswers s (n + 1) with
          bus := s.bus ++ (events ++ [.read h0 (p.setWidth 16) (answerAt s n)]) })) := by
  rw [readPointer, memRead_reading n pc _ _ hm0 (maskAddr_byte p), andThen_done,
    memRead_reading_unmapped (n + 1) pc _ _ hm1 (maskAddr_byte _), andThen_raised]

end Fetches

/-! ### `resolve`, one equation a mode -/

section Modes

variable (pbp rmw : Bool) (s : State)

theorem resolve_immediate :
    resolve ⟨.immediate, pbp, rmw⟩ s = .done (s.pc.setWidth 17) (advancePc s) := rfl

theorem resolve_zeroPage :
    resolve ⟨.zeroPage, pbp, rmw⟩ s = (nextByte s).andThen fun b t => .done (zext b) t := rfl

theorem resolve_zeroPageX :
    resolve ⟨.zeroPageX, pbp, rmw⟩ s =
      (nextByte s).andThen fun b t => .done (zext (add8 b t.x)) t := rfl

theorem resolve_zeroPageY :
    resolve ⟨.zeroPageY, pbp, rmw⟩ s =
      (nextByte s).andThen fun b t => .done (zext (add8 b t.y)) t := rfl

theorem resolve_absolute :
    resolve ⟨.absolute, pbp, rmw⟩ s = (nextWord s).andThen fun w t => .done (w.setWidth 17) t := rfl

theorem resolve_absoluteX :
    resolve ⟨.absoluteX, pbp, rmw⟩ s =
      (nextWord s).andThen fun w t => .done (add17 w t.x) (penalty w t.x pbp t) := rfl

theorem resolve_absoluteY :
    resolve ⟨.absoluteY, pbp, rmw⟩ s =
      (nextWord s).andThen fun w t => .done (add17 w t.y) (penalty w t.y pbp t) := rfl

theorem resolve_indirectX :
    resolve ⟨.indirectX, pbp, rmw⟩ s =
      (nextByte s).andThen fun b t =>
        (readPointer (add8 b t.x) t).andThen fun w u => .done (w.setWidth 17) u := rfl

theorem resolve_indirectY :
    resolve ⟨.indirectY, pbp, rmw⟩ s =
      (nextByte s).andThen fun p t =>
        (readPointer p t).andThen fun w u =>
          .done ((add16 w u.y).setWidth 17) (penalty w u.y pbp u) := rfl

/-- R144, R145: without a rule for the mode nothing comes before the fault. -/
theorem resolve_of_not_resolvable {d : Descriptor} (h : d.mode.resolvable = false) :
    resolve d s = .raised (raiseUnimplementedMode d.mode.code s) := by
  obtain ⟨m, pbp, rmw⟩ := d
  cases m with
  | none | direct | outside c => rfl
  | _ => cases h

end Modes

/-! ### Results of the modes without a pointer -/

/-- Settles O20: the stream position is the address, and no read is made. -/
theorem Resolver.resolveImmediate : Obligations.ResolveImmediate := by
  intro pbp rmw s
  rw [resolve_immediate, word_effAddr, pc_advanced]
  rfl

/-- Settles O21: in each of the three modes the one fetch, and the operand byte plus the index. -/
theorem Resolver.resolveZeroPageModes : Obligations.ResolveZeroPageModes := by
  intro pbp rmw s
  rw [pc_advanced]
  refine ⟨fun h hm => ?zeroPage, fun hm => ?zeroPageFault, fun h hm => ?zeroPageX,
    fun hm => ?zeroPageXFault, fun h hm => ?zeroPageY, fun hm => ?zeroPageYFault⟩
  case zeroPage => rw [resolve_zeroPage, nextByte_mapped hm, andThen_done, zext_effAddr]; rfl
  case zeroPageX | zeroPageY =>
    simp only [resolve_zeroPageX, resolve_zeroPageY, nextByte_mapped hm, andThen_done,
      reading_x, reading_y, zext_add8_effAddr]
    rfl
  case zeroPageFault | zeroPageXFault | zeroPageYFault =>
    simp only [resolve_zeroPage, resolve_zeroPageX, resolve_zeroPageY, nextByte_unmapped hm,
      andThen_raised]

/-- Settles O22: in each of the three modes the one word fetch, by which of its bytes is mapped;
where it answers, the word plus the index, and the penalty against the word. -/
theorem Resolver.resolveAbsoluteModes : Obligations.ResolveAbsoluteModes := by
  intro pbp rmw s pc1 hpc1
  obtain rfl := pc_second hpc1
  rw [pc_advanced]
  refine ⟨fun h0 h1 hm0 hm1 => ?absolute, fun hm => ?absoluteLow, fun h0 hm0 hm1 => ?absoluteHigh,
    fun h0 h1 hm0 hm1 => ?absoluteX, fun hm => ?absoluteXLow, fun h0 hm0 hm1 => ?absoluteXHigh,
    fun h0 h1 hm0 hm1 => ?absoluteY, fun hm => ?absoluteYLow, fun h0 hm0 hm1 => ?absoluteYHigh⟩
  case absolute =>
    rw [resolve_absolute, nextWord_mapped hm0 hm1, andThen_done, cat_effAddr]; rfl
  case absoluteX | absoluteY =>
    simp only [resolve_absoluteX, resolve_absoluteY, nextWord_mapped hm0 hm1, andThen_done,
      reading_x, reading_y, add17_cat_effAddr, penalty_cat]
    rfl
  case absoluteLow | absoluteXLow | absoluteYLow =>
    simp only [resolve_absolute, resolve_absoluteX, resolve_absoluteY, nextWord_low_unmapped hm,
      andThen_raised]
  case absoluteHigh | absoluteXHigh | absoluteYHigh =>
    simp only [resolve_absolute, resolve_absoluteX, resolve_absoluteY,
      nextWord_high_unmapped hm0 hm1, andThen_raised]

/-! ### Results of the modes with a pointer -/

/-- Settles O23: the operand fetch, then the pointer at the indexed operand byte, by which of the
three reads is the first at a default slot. -/
theorem Resolver.resolveIndirectX : Obligations.ResolveIndirectX := by
  intro pbp rmw s base base1 hbase hbase1
  rw [← add8_toNat] at hbase
  rw [hbase, ← inc8_toNat] at hbase1
  obtain rfl := zeroPage_eq hbase
  obtain rfl := zeroPage_eq hbase1
  rw [resolve_indirectX, pc_advanced]
  refine ⟨fun h0 h1 h2 hm0 hm1 hm2 => ?answered, fun hm => ?operand, fun h0 hm0 hm1 => ?low,
    fun h0 h1 hm0 hm1 hm2 => ?high⟩
  case answered =>
    rw [nextByte_mapped hm0, andThen_done, reading_x, readPointer_reading 1 _ _ hm1 hm2,
      andThen_done, cat_effAddr]
    rfl
  case operand => rw [nextByte_unmapped hm, andThen_raised]
  case low =>
    rw [nextByte_mapped hm0, andThen_done, reading_x, readPointer_reading_low_unmapped 1 _ _ hm1,
      andThen_raised]
  case high =>
    rw [nextByte_mapped hm0, andThen_done, reading_x,
      readPointer_reading_high_unmapped 1 _ _ hm1 hm2, andThen_raised]
    rfl

/-- Settles O24: the operand fetch, then the pointer at the operand byte, by which of the three
reads is the first at a default slot; the penalty against the word at the pointer. -/
theorem Resolver.resolveIndirectY : Obligations.ResolveIndirectY := by
  intro pbp rmw s p p1 hp hp1
  rw [hp, ← inc8_toNat] at hp1
  obtain rfl := zeroPage_eq hp
  obtain rfl := zeroPage_eq hp1
  rw [resolve_indirectY, pc_advanced]
  refine ⟨fun h0 h1 h2 hm0 hm1 hm2 => ?answered, fun hm => ?operand, fun h0 hm0 hm1 => ?low,
    fun h0 h1 hm0 hm1 hm2 => ?high⟩
  case answered =>
    rw [nextByte_mapped hm0, andThen_done, readPointer_reading 1 _ _ hm1 hm2, andThen_done,
      reading_y, add16_cat_effAddr, penalty_cat]
    rfl
  case operand => rw [nextByte_unmapped hm, andThen_raised]
  case low =>
    rw [nextByte_mapped hm0, andThen_done, readPointer_reading_low_unmapped 1 _ _ hm1,
      andThen_raised]
  case high =>
    rw [nextByte_mapped hm0, andThen_done, readPointer_reading_high_unmapped 1 _ _ hm1 hm2,
      andThen_raised]
    rfl

/-! ### The modes without a rule -/

section NothingMemoized

variable {d : Descriptor} {s : State} {f : Fault}

theorem effectiveAddress_of_resolve_raised (hea : s.ea = none) (hr : resolve d s = .raised f) :
    effectiveAddress d s = .raised f := by
  simp only [effectiveAddress, hea, hr, andThen_raised]

theorem readOperand_of_resolve_raised (hd : d.mode ≠ .direct) (hea : s.ea = none)
    (hr : resolve d s = .raised f) : readOperand d s = .raised f := by
  rw [readOperand, if_neg hd, effectiveAddress_of_resolve_raised hea hr, andThen_raised]

theorem writeOperand_of_resolve_raised (v : Byte) (hd : d.mode ≠ .direct) (hea : s.ea = none)
    (hr : resolve d s = .raised f) : writeOperand d v s = .raised f := by
  rw [writeOperand, if_neg hd, effectiveAddress_of_resolve_raised hea hr, andThen_raised]

/-- R205 for `readOperand`: the resolver's fault is the command's. -/
theorem exec_read_of_resolve_raised {i : Instr} (hi : i.readDescriptor = some d)
    (hd : d.mode ≠ .direct) (hea : s.ea = none) (hr : resolve d s = .raised f) :
    exec i s = .fault f := by
  rw [exec_readDescriptor hi, readOperand_of_resolve_raised hd hea hr, completeByte]

/-- R205 for `writeOperand`. -/
theorem exec_write_of_resolve_raised {i : Instr} {v : Byte} (hi : i.writeDescriptor = some (d, v))
    (hd : d.mode ≠ .direct) (hea : s.ea = none) (hr : resolve d s = .raised f) :
    exec i s = .fault f := by
  rw [exec_writeDescriptor hi, writeOperand_of_resolve_raised v hd hea hr, completeUnit]

end NothingMemoized

/-- Settles O27: `resolve` without a rule, and the operand commands by what `resolve` raises. -/
theorem Resolver.unimplementedModes : Obligations.UnimplementedModes := by
  intro pbp rmw v c s
  have hnone : resolve ⟨.none, pbp, rmw⟩ s = .raised (.unimplementedMode 0 (faulted 2 0 s)) :=
    resolve_of_not_resolvable s rfl
  have hdirect : resolve ⟨.direct, pbp, rmw⟩ s = .raised (.unimplementedMode 1 (faulted 2 1 s)) :=
    resolve_of_not_resolvable s rfl
  have houtside : resolve ⟨.outside c, pbp, rmw⟩ s =
      .raised (.unimplementedMode c (faulted 2 (BitVec.ofNat 16 c.toNat) s)) := by
    rw [BitVec.ofNat_toNat]
    exact resolve_of_not_resolvable s rfl
  exact ⟨hnone, hdirect, houtside, fun hea =>
    ⟨exec_read_of_resolve_raised rfl nofun hea hnone,
      exec_write_of_resolve_raised rfl nofun hea hnone,
      exec_read_of_resolve_raised rfl nofun hea houtside,
      exec_write_of_resolve_raised rfl nofun hea houtside⟩⟩

end Sys2Proof.Machine
end

section
/-! SUPPORT. The operand accessor (42_operand_accessor.md): the operand commands in Direct mode and the
instruction boundary. -/

namespace Sys2Proof.Machine

/-! ### Direct mode (R164) -/

section Direct

variable {d : Descriptor} (hd : d.mode = .direct)
include hd

theorem readOperand_of_direct (s : State) : readOperand d s = .done s.a s :=
  if_pos hd

theorem writeOperand_of_direct (v : Byte) (s : State) :
    writeOperand d v s = .done () { s with a := v } :=
  if_pos hd

theorem exec_read_of_direct {i : Instr} (hi : i.readDescriptor = some d) (s : State) :
    exec i s = .next { s with rsp := some (s.a.setWidth 16) } := by
  rw [exec_readDescriptor hi, readOperand_of_direct hd, completeByte]

theorem exec_write_of_direct {i : Instr} {v : Byte} (hi : i.writeDescriptor = some (d, v))
    (s : State) : exec i s = .next { s with a := v, rsp := none } := by
  rw [exec_writeDescriptor hi, writeOperand_of_direct hd, completeUnit, complete]

end Direct

/-- Settles O35: `A` is the operand, whatever else the descriptor and the state hold. -/
theorem directMode : Obligations.DirectMode := by
  intro pbp rmw v s
  rw [BitVec.ofNat_toNat]
  exact ⟨exec_read_of_direct rfl rfl s, exec_write_of_direct rfl rfl s⟩

/-! ### The instruction boundary (R162) -/

theorem exec_resetForNextInstruction (s : State) :
    exec .resetForNextInstruction s = .next { s with ea := none, lr := none, rsp := none } := rfl

/-- Settles O36: the second boundary sets to `none` what the first one left at `none`. -/
theorem instructionBoundary : Obligations.InstructionBoundary :=
  fun s => ⟨exec_resetForNextInstruction s, exec_resetForNextInstruction _⟩

end Sys2Proof.Machine
end

section
/-! SUPPORT. The stack unit (43_stack_unit.md): `SP` as a number modulo 256, the pushes and pops as
stores and reads at the slot of `SP`, and the page that none of them leaves. -/

namespace Sys2Proof.Machine

/-! ### `SP` and its slot (R180) -/

theorem sp_advanced (sp : Byte) (n : Nat) :
    BitVec.ofNat 8 (sp.toNat + n) = sp + BitVec.ofNat 8 n := by
  rw [BitVec.ofNat_add, BitVec.ofNat_toNat, BitVec.setWidth_eq]

/-- Down by one is up by 255. -/
theorem sp_decremented (sp : Byte) : sp - 1#8 = sp + 255#8 :=
  BitVec.sub_eq_add_neg sp 1#8

theorem sp_incremented_twice (sp : Byte) : sp + 1#8 + 1#8 = sp + 2#8 :=
  BitVec.add_assoc sp 1#8 1#8

theorem maskAddr_stack_advanced {a : Word} {sp : Byte} {n : Nat}
    (h : a.toNat = 0x100 + (sp.toNat + n) % 256) :
    maskAddr (stackAddr (sp + BitVec.ofNat 8 n)) = a := by
  apply maskAddr_stack
  rw [h, ← sp_advanced, BitVec.toNat_ofNat]

theorem maskAddr_stack_toNat (sp : Byte) : (maskAddr (stackAddr sp)).toNat = 0x100 + sp.toNat := by
  have := sp.isLt
  simp only [maskAddr, stackAddr, BitVec.toNat_setWidth, BitVec.toNat_add, BitVec.toNat_ofNat]
  omega

/-! ### The pushes (R181, R183) -/

theorem exec_push (v : Byte) (s : State) :
    exec (.push v) s = .next { pushByte v s with rsp := none } := rfl

theorem exec_pushWord (w : Word) (s : State) :
    exec (.pushWord w) s = .next { pushBytes w s with rsp := none } := rfl

theorem highByte_eq (w : Word) : w.extractLsb' 8 8 = BitVec.ofNat 8 (w.toNat / 256) := by
  apply BitVec.eq_of_toNat_eq
  rw [extract_toNat, BitVec.toNat_ofNat]
  omega

theorem lowByte_eq (w : Word) : w.extractLsb' 0 8 = BitVec.ofNat 8 (w.toNat % 256) := by
  apply BitVec.eq_of_toNat_eq
  rw [extract_toNat, BitVec.toNat_ofNat]
  omega

/-- R183: the second store is one slot below, and goes by the table the first one left alone. -/
theorem pushBytes_eq (w : Word) (s : State) :
    pushBytes w s = { s with
      bus := s.bus ++ writeEvents s (maskAddr (stackAddr s.sp)) (w.extractLsb' 8 8)
        ++ writeEvents s (maskAddr (stackAddr (s.sp + 255#8))) (w.extractLsb' 0 8)
      sp := s.sp + 254#8 } := by
  have hsp : s.sp + 255#8 + 255#8 = s.sp + 254#8 := BitVec.add_assoc s.sp 255#8 255#8
  simp only [pushBytes, pushByte_eq, sp_decremented, hsp]
  rfl

/-- Settles O41: one store at the slot of `SP`, and the decrement. -/
theorem pushResult : Obligations.PushResult := by
  intro v s a ha
  obtain rfl := maskAddr_stack s.sp a ha
  rw [exec_push, pushByte_eq, sp_decremented, sp_advanced]

/-- Settles O43: the two stores of `pushBytes_eq`, each at its address. -/
theorem pushWordResult : Obligations.PushWordResult := by
  intro w s a1 a2 ha1 ha2
  obtain rfl := maskAddr_stack s.sp a1 ha1
  obtain rfl := maskAddr_stack_advanced ha2
  rw [exec_pushWord, pushBytes_eq, highByte_eq, lowByte_eq, sp_advanced]

/-! ### The pops (R182, R184) -/

theorem exec_pop (s : State) : exec .pop s = completeByte (popByte s) := rfl

theorem exec_popWord (s : State) : exec .popWord s = completeWord (popBytes s) := rfl

/-! A pop after `n` answered reads, as in `memRead_reading`, with `SP` at `p`. -/

section Pops

variable {s : State} {h0 h1 : HandlerId}

theorem popByte_reading (n : Nat) (p : Byte) (pc : Word) (events : List BusEvent)
    (hm : s.rt.lookup (maskAddr (stackAddr (p + 1#8))) = some h0) :
    popByte (reading { s with sp := p } n pc events) =
      .done (answerAt s n) (reading { s with sp := p + 1#8 } (n + 1) pc
        (events ++ [.read h0 (maskAddr (stackAddr (p + 1#8))) (answerAt s n)])) :=
  memRead_reading (s := { s with sp := p + 1#8 }) n pc events _ hm rfl

/-- The fault forgets that `SP` has moved: `SP` is a free value after it (R203). -/
theorem popByte_reading_unmapped (n : Nat) (p : Byte) (pc : Word) (events : List BusEvent)
    (hm : s.rt.lookup (maskAddr (stackAddr (p + 1#8))) = none) :
    popByte (reading { s with sp := p } n pc events) =
      .raised (.unmappedRead (maskAddr (stackAddr (p + 1#8)))
        (faulted 1 (maskAddr (stackAddr (p + 1#8)))
          { skipAnswers s n with bus := s.bus ++ events })) :=
  memRead_reading_unmapped (s := { s with sp := p + 1#8 }) n pc events _ hm rfl

theorem popByte_mapped (hm : s.rt.lookup (maskAddr (stackAddr (s.sp + 1#8))) = some h0) :
    popByte s = .done (answerAt s 0) (reading { s with sp := s.sp + 1#8 } 1 s.pc
      [.read h0 (maskAddr (stackAddr (s.sp + 1#8))) (answerAt s 0)]) := by
  conv_lhs => rw [← reading_zero s]
  exact popByte_reading 0 s.sp s.pc [] hm

theorem popByte_unmapped (hm : s.rt.lookup (maskAddr (stackAddr (s.sp + 1#8))) = none) :
    popByte s = .raised (.unmappedRead (maskAddr (stackAddr (s.sp + 1#8)))
      (faulted 1 (maskAddr (stackAddr (s.sp + 1#8))) s)) :=
  memRead_unmapped (s := { s with sp := s.sp + 1#8 }) hm

/-- R184: the low byte comes first. -/
theorem popBytes_mapped (hm0 : s.rt.lookup (maskAddr (stackAddr (s.sp + 1#8))) = some h0)
    (hm1 : s.rt.lookup (maskAddr (stackAddr (s.sp + 2#8))) = some h1) :
    popBytes s = .done (cat (answerAt s 1) (answerAt s 0))
      (reading { s with sp := s.sp + 2#8 } 2 s.pc
        [.read h0 (maskAddr (stackAddr (s.sp + 1#8))) (answerAt s 0),
          .read h1 (maskAddr (stackAddr (s.sp + 2#8))) (answerAt s 1)]) := by
  rw [← sp_incremented_twice] at hm1 ⊢
  rw [popBytes, popByte_mapped hm0, andThen_done, popByte_reading 1 _ _ _ hm1, andThen_done]
  rfl

theorem popBytes_low_unmapped (hm : s.rt.lookup (maskAddr (stackAddr (s.sp + 1#8))) = none) :
    popBytes s = .raised (.unmappedRead (maskAddr (stackAddr (s.sp + 1#8)))
      (faulted 1 (maskAddr (stackAddr (s.sp + 1#8))) s)) := by
  rw [popBytes, popByte_unmapped hm, andThen_raised]

theorem popBytes_high_unmapped
    (hm0 : s.rt.lookup (maskAddr (stackAddr (s.sp + 1#8))) = some h0)
    (hm1 : s.rt.lookup (maskAddr (stackAddr (s.sp + 2#8))) = none) :
    popBytes s = .raised (.unmappedRead (maskAddr (stackAddr (s.sp + 2#8)))
      (faulted 1 (maskAddr (stackAddr (s.sp + 2#8))) { skipAnswers s 1 with
        bus := s.bus ++ [.read h0 (maskAddr (stackAddr (s.sp + 1#8))) (answerAt s 0)] })) := by
  rw [← sp_incremented_twice] at hm1 ⊢
  rw [popBytes, popByte_mapped hm0, andThen_done, popByte_reading_unmapped 1 _ _ _ hm1,
    andThen_raised]

end Pops

theorem cat_eq_ofNat (hi lo : Byte) : cat hi lo = BitVec.ofNat 16 (wordOf lo hi) := by
  rw [← cat_toNat, BitVec.ofNat_toNat, BitVec.setWidth_eq]

/-- Settles O42: the one read, by what its slot holds. -/
theorem popResult : Obligations.PopResult := by
  intro s a ha
  obtain rfl := maskAddr_stack_advanced ha
  refine ⟨fun h hbound => ?bound, fun hdefault => ?default⟩
  case bound => rw [exec_pop, popByte_mapped hbound, sp_advanced]; rfl
  case default => rw [exec_pop, popByte_unmapped hdefault]; rfl

/-- Settles O44: the two reads, by which of them is the first at a default slot. -/
theorem popWordResult : Obligations.PopWordResult := by
  intro s a1 a2 ha1 ha2
  obtain rfl := maskAddr_stack_advanced ha1
  obtain rfl := maskAddr_stack_advanced ha2
  refine ⟨fun h1 h2 hm1 hm2 => ?bound, fun hm1 => ?low, fun h1 hm1 hm2 => ?high⟩
  case bound => rw [exec_popWord, popBytes_mapped hm1 hm2, cat_eq_ofNat, sp_advanced]; rfl
  case low => rw [exec_popWord, popBytes_low_unmapped hm1]; rfl
  case high => rw [exec_popWord, popBytes_high_unmapped hm1 hm2]; rfl

/-! ### The stack page (R185) -/

/-- The addresses `0x0100 + SP` can be (R180). -/
def inStackPage (a : Word) : Prop := 0x100 ≤ a.toNat ∧ a.toNat ≤ 0x1FF

theorem inStackPage_maskAddr_stack (sp : Byte) : inStackPage (maskAddr (stackAddr sp)) := by
  have := sp.isLt
  rw [inStackPage, maskAddr_stack_toNat]
  omega

/-- What R185 allows a stack command that starts in `s`: events in the stack page, or `UnmappedRead`
of a default slot there. -/
def keepsToStackPage (s : State) : Host.Outcome State Fault Refusal → Prop
  | .next t => ∃ events, t.bus = s.bus ++ events ∧ ∀ x ∈ events, inStackPage x.addr
  | .fault f => f.code = 1 ∧ s.rt.lookup f.info = none ∧ inStackPage f.info
  | .refused _ => False

theorem writeEvents_inStackPage {s : State} {sp v : Byte} :
    ∀ x ∈ writeEvents s (maskAddr (stackAddr sp)) v, inStackPage x.addr := by
  intro x hx
  obtain ⟨hid, rfl, -⟩ := mem_writeEvents hx
  exact inStackPage_maskAddr_stack sp

theorem push_keepsToStackPage (v : Byte) (s : State) :
    keepsToStackPage s (exec (.push v) s) := by
  rw [exec_push, pushByte_eq]
  exact ⟨_, rfl, writeEvents_inStackPage⟩

theorem pushWord_keepsToStackPage (w : Word) (s : State) :
    keepsToStackPage s (exec (.pushWord w) s) := by
  rw [exec_pushWord, pushBytes_eq]
  exact ⟨_, List.append_assoc .., List.forall_mem_append.2
    ⟨writeEvents_inStackPage, writeEvents_inStackPage⟩⟩

theorem pop_keepsToStackPage (s : State) : keepsToStackPage s (exec .pop s) := by
  rw [exec_pop]
  cases hm : s.rt.lookup (maskAddr (stackAddr (s.sp + 1#8))) with
  | none =>
    rw [popByte_unmapped hm]
    exact ⟨rfl, hm, inStackPage_maskAddr_stack _⟩
  | some h =>
    rw [popByte_mapped hm]
    exact ⟨_, rfl, List.forall_mem_singleton.2 (inStackPage_maskAddr_stack _)⟩

theorem popWord_keepsToStackPage (s : State) : keepsToStackPage s (exec .popWord s) := by
  rw [exec_popWord]
  cases hm0 : s.rt.lookup (maskAddr (stackAddr (s.sp + 1#8))) with
  | none =>
    rw [popBytes_low_unmapped hm0]
    exact ⟨rfl, hm0, inStackPage_maskAddr_stack _⟩
  | some h0 =>
    cases hm1 : s.rt.lookup (maskAddr (stackAddr (s.sp + 2#8))) with
    | none =>
      rw [popBytes_high_unmapped hm0 hm1]
      exact ⟨rfl, hm1, inStackPage_maskAddr_stack _⟩
    | some h1 =>
      rw [popBytes_mapped hm0 hm1]
      exact ⟨_, rfl, List.forall_mem_cons.2 ⟨inStackPage_maskAddr_stack _,
        List.forall_mem_singleton.2 (inStackPage_maskAddr_stack _)⟩⟩

/-- Settles O46: each of the four commands keeps to the page, whatever its outcome. -/
theorem stackStaysInItsPage : Obligations.StackStaysInItsPage := by
  intro i s hi
  have hkeeps : keepsToStackPage s (exec i s) := by
    obtain rfl | rfl | ⟨v, rfl⟩ | ⟨w, rfl⟩ := hi
    · exact pop_keepsToStackPage s
    · exact popWord_keepsToStackPage s
    · exact push_keepsToStackPage v s
    · exact pushWord_keepsToStackPage w s
  refine ⟨fun t h => ?next, fun f h => ?fault, fun r h => ?refused⟩
  case next | fault | refused => rwa [h] at hkeeps

end Sys2Proof.Machine
end

section
/-! SUPPORT. The reset (70_reset_and_hazards.md R230): the step that takes it, and what is left of the
block's own registers. -/

namespace Sys2Proof.Machine

theorem fetch_reset {s : State} {rest : List Input} (h : s.inputs = .reset :: rest) :
    fetch s = .settled (resetBlock { s with inputs := rest }) := by
  simp only [fetch, h]

theorem step_of_fetch_settled {s t : State} (h : fetch s = .settled t) : step s = .next t := by
  simp only [step, h]

theorem resetBlock_lookup (s : State) (a : Word) :
    (resetBlock s).rt.lookup a = none ∧ (resetBlock s).wt.lookup a = none :=
  ⟨Table.lookup_default a, Table.lookup_default a⟩

/-- Settles O2: the next state is `resetBlock` of the state with the act taken, and each register of
it is a law of `resetBlock`. -/
theorem resetAction : Obligations.ResetAction := by
  intro s rest hin
  have hstep : step s = .next (resetBlock { s with inputs := rest }) :=
    step_of_fetch_settled (fetch_reset hin)
  refine ⟨_, hstep, resetBlock_lookup _, ?registers⟩
  case registers => simp

end Sys2Proof.Machine
end

section
/-! SUPPORT. Decode and encode agree (30_encoding.md sections 2 and 5): which words the decoder
accepts, and the round trip in both directions. -/

namespace Sys2Proof

/-! ### The decoder by the reserved bits -/

theorem decode_eq_ok_iff {w : CmdWord} {i : Instr} :
    decode w = .ok i ↔ w.reservedOk = some true ∧ w.select = i := by
  unfold decode
  split <;> simp [*]

/-- The words the decoder accepts, and the command each selects (R82, R94). -/
inductive Accepted (w : CmdWord) : Instr → Prop
  | read (hop : w.op = 0x0#4) (hz : w.zeroBits 0 12 = true) : Accepted w (.read w.addr)
  | write (hop : w.op = 0x1#4) (hz : w.zeroBits 8 4 = true) : Accepted w (.write w.addr w.data)
  | installReadHandler (hop : w.op = 0x2#4) :
      Accepted w (.installReadHandler w.start w.stop w.hid)
  | installWriteHandler (hop : w.op = 0x3#4) :
      Accepted w (.installWriteHandler w.start w.stop w.hid)
  | readOperand (hop : w.op = 0x4#4) (hz : w.zeroBits 0 38 = true) :
      Accepted w (Instr.readOperand w.descriptor)
  | writeOperand (hop : w.op = 0x5#4) (hz : w.zeroBits 8 30 = true) :
      Accepted w (Instr.writeOperand w.descriptor w.data)
  | resetForNextInstruction (hop : w.op = 0x6#4) (hz : w.zeroBits 0 44 = true) :
      Accepted w .resetForNextInstruction
  | push (hop : w.op = 0x8#4) (hz : w.zeroBits 8 36 = true) : Accepted w (.push w.data)
  | pop (hop : w.op = 0x9#4) (hz : w.zeroBits 0 44 = true) : Accepted w .pop
  | pushWord (hop : w.op = 0xA#4) (hz : w.zeroBits 16 28 = true) : Accepted w (.pushWord w.wdata)
  | popWord (hop : w.op = 0xB#4) (hz : w.zeroBits 0 44 = true) : Accepted w .popWord

theorem decode_accepted {w : CmdWord} {i : Instr} (h : decode w = .ok i) : Accepted w i := by
  obtain ⟨hok, rfl⟩ := decode_eq_ok_iff.1 h
  have hlt := w.op.isLt
  have hop : w.op = BitVec.ofNat 4 w.op.toNat := by simp
  unfold CmdWord.reservedOk at hok
  unfold CmdWord.select
  generalize w.op.toNat = k at hok hlt hop ⊢
  interval_cases k <;> simp only [Option.some.injEq, reduceCtorEq] at hok
  · exact .read hop hok
  · exact .write hop hok
  · exact .installReadHandler hop
  · exact .installWriteHandler hop
  · exact .readOperand hop hok
  · exact .writeOperand hop hok
  · exact .resetForNextInstruction hop hok
  · exact .push hop hok
  · exact .pop hop hok
  · exact .pushWord hop hok
  · exact .popWord hop hok

theorem decode_of_accepted {w : CmdWord} {i : Instr} (h : Accepted w i) : decode w = .ok i := by
  refine decode_eq_ok_iff.2 ?_
  cases h with
  | installReadHandler hop | installWriteHandler hop =>
    simp [CmdWord.reservedOk, CmdWord.select, hop]
  | read hop hz | write hop hz | readOperand hop hz | writeOperand hop hz
  | resetForNextInstruction hop hz | push hop hz | pop hop hz | pushWord hop hz
  | popWord hop hz => simp [CmdWord.reservedOk, CmdWord.select, hop, hz]

/-! ### The operand commands by their descriptors -/

theorem eq_readOperand {i : Instr} {d : Descriptor} (h : i.readDescriptor = some d) :
    i = Instr.readOperand d := by
  cases i <;> simp only [Instr.readDescriptor, Option.some.injEq, reduceCtorEq] at h <;> subst h <;>
    rfl

theorem eq_writeOperand {i : Instr} {d : Descriptor} {v : Byte}
    (h : i.writeDescriptor = some (d, v)) : i = Instr.writeOperand d v := by
  cases i <;> simp only [Instr.writeDescriptor, Option.some.injEq, Prod.mk.injEq, reduceCtorEq] at h
    <;> obtain ⟨rfl, rfl⟩ := h <;> rfl

/-- Format O for `readOperand`, by the descriptor alone. -/
theorem encode_readOperand (d : Descriptor) :
    encode (Instr.readOperand d) = encodeO 0x4#4 d 0#8 := by
  obtain ⟨m, p, r⟩ := d
  cases m <;> rfl

/-- Format O for `writeOperand`, by the descriptor and the byte alone. -/
theorem encode_writeOperand (d : Descriptor) (v : Byte) :
    encode (Instr.writeOperand d v) = encodeO 0x5#4 d v := by
  obtain ⟨m, p, r⟩ := d
  cases m <;> rfl

theorem readOperand_wellFormed (d : Descriptor) :
    (Instr.readOperand d).wellFormed = d.mode.wellFormed := by
  obtain ⟨m, p, r⟩ := d
  cases m <;> rfl

theorem writeOperand_wellFormed (d : Descriptor) (v : Byte) :
    (Instr.writeOperand d v).wellFormed = d.mode.wellFormed := by
  obtain ⟨m, p, r⟩ := d
  cases m <;> rfl

/-! ### Decode of encode -/

theorem decode_encode_of_readDescriptor {i : Instr} {d : Descriptor}
    (hi : i.readDescriptor = some d) (hwf : i.wellFormed = true) : decode (encode i) = .ok i := by
  obtain rfl := eq_readOperand hi
  rw [readOperand_wellFormed] at hwf
  obtain ⟨hop, hd, -⟩ := encodeO_fields 0x4#4 d 0#8 hwf
  rw [encode_readOperand]
  exact decode_eq_ok_iff.2
    ⟨(Laws.Opcode.formatO_read d hwf).2, by simp [CmdWord.select, hop, hd]⟩

theorem decode_encode_of_writeDescriptor {i : Instr} {d : Descriptor} {v : Byte}
    (hi : i.writeDescriptor = some (d, v)) (hwf : i.wellFormed = true) :
    decode (encode i) = .ok i := by
  obtain rfl := eq_writeOperand hi
  rw [writeOperand_wellFormed] at hwf
  obtain ⟨hop, hd, hv, -⟩ := encodeO_fields 0x5#4 d v hwf
  rw [encode_writeOperand]
  exact decode_eq_ok_iff.2
    ⟨(Laws.Opcode.formatO_write d v hwf).2, by simp [CmdWord.select, hop, hd, hv]⟩

/-- Settles O8: the operand commands by their descriptor, every other command by the fields of its
format. -/
theorem decodeOfEncode : Obligations.DecodeOfEncode := by
  intro i hwf
  cases i with
  | read addr =>
    obtain ⟨hop, haddr, -⟩ := encodeB_fields 0x0#4 addr 0#8
    refine decode_eq_ok_iff.2 ⟨(Laws.Opcode.read addr hwf).2, ?_⟩
    simp [encode, Instr.opcode, CmdWord.select, hop, haddr]
  | write addr v =>
    obtain ⟨hop, haddr, hv, -⟩ := encodeB_fields 0x1#4 addr v
    refine decode_eq_ok_iff.2 ⟨(Laws.Opcode.write addr v hwf).2, ?_⟩
    simp [encode, Instr.opcode, CmdWord.select, hop, haddr, hv]
  | installReadHandler start stop hid =>
    obtain ⟨hop, hstart, hstop, hhid⟩ := encodeI_fields 0x2#4 start stop hid
    refine decode_eq_ok_iff.2 ⟨(Laws.Opcode.installReadHandler start stop hid hwf).2, ?_⟩
    simp [encode, Instr.opcode, CmdWord.select, hop, hstart, hstop, hhid]
  | installWriteHandler start stop hid =>
    obtain ⟨hop, hstart, hstop, hhid⟩ := encodeI_fields 0x3#4 start stop hid
    refine decode_eq_ok_iff.2 ⟨(Laws.Opcode.installWriteHandler start stop hid hwf).2, ?_⟩
    simp [encode, Instr.opcode, CmdWord.select, hop, hstart, hstop, hhid]
  | readOperandNone | readOperandDir | readOperandImm | readOperandZp | readOperandAbs
  | readOperandZpx | readOperandZpy | readOperandAbsx | readOperandAbsy | readOperandIndx
  | readOperandIndy | readOperandOutside => exact decode_encode_of_readDescriptor rfl hwf
  | writeOperandNone | writeOperandDir | writeOperandImm | writeOperandZp | writeOperandAbs
  | writeOperandZpx | writeOperandZpy | writeOperandAbsx | writeOperandAbsy | writeOperandIndx
  | writeOperandIndy | writeOperandOutside => exact decode_encode_of_writeDescriptor rfl hwf
  | resetForNextInstruction | pop | popWord => decide
  | push v =>
    obtain ⟨hop, -, -, hv, -⟩ := encodeS_fields 0x8#4 (v.setWidth 16)
    refine decode_eq_ok_iff.2 ⟨(Laws.Opcode.push v hwf).2, ?_⟩
    simp [encode, Instr.opcode, CmdWord.select, hop, hv]
  | pushWord w =>
    obtain ⟨hop, -, hw, -⟩ := encodeS_fields 0xA#4 w
    refine decode_eq_ok_iff.2 ⟨(Laws.Opcode.pushWord w hwf).2, ?_⟩
    simp [encode, Instr.opcode, CmdWord.select, hop, hw]

/-! ### Encode of decode -/

section Fields

variable (w : CmdWord)

theorem CmdWord.zeroBits_iff (lo n : Nat) :
    w.zeroBits lo n = true ↔ w.toNat / 2 ^ lo % 2 ^ n = 0 := by
  rw [CmdWord.zeroBits_eq, decide_eq_true_iff]

/-- A format B word is its fields. -/
theorem encodeB_of_fields (h : w.zeroBits 8 4 = true) : encodeB w.op w.addr w.data = w := by
  apply BitVec.eq_of_toNat_eq
  rw [CmdWord.zeroBits_iff] at h
  rw [encodeB_toNat, CmdWord.op_toNat_eq_div, CmdWord.addr, CmdWord.data, extract_toNat,
    extract_toNat]
  omega

/-- A format I word is its fields, whatever its bits. -/
theorem encodeI_of_fields : encodeI w.op w.start w.stop w.hid = w := by
  apply BitVec.eq_of_toNat_eq
  rw [encodeI_toNat, CmdWord.op_toNat_eq_div, CmdWord.start, CmdWord.stop, CmdWord.hid,
    extract_toNat, extract_toNat, extract_toNat]
  omega

/-- A format O word is its fields. -/
theorem encodeO_of_fields (h : w.zeroBits 8 30 = true) :
    encodeO w.op w.descriptor w.data = w := by
  apply BitVec.eq_of_toNat_eq
  rw [CmdWord.zeroBits_iff] at h
  rw [encodeO_toNat, CmdWord.op_toNat_eq_div, CmdWord.descriptor, Mode.code_ofCode,
    CmdWord.pbp_toNat, CmdWord.rmw_toNat, CmdWord.mode, CmdWord.data, extract_toNat,
    extract_toNat]
  omega

/-- A format N word is its `OP`. -/
theorem encodeN_of_fields (h : w.zeroBits 0 44 = true) : encodeN w.op = w := by
  apply BitVec.eq_of_toNat_eq
  rw [CmdWord.zeroBits_iff] at h
  rw [encodeN_toNat, CmdWord.op_toNat_eq_div]
  omega

/-- A format S word is its fields. -/
theorem encodeS_of_fields (h : w.zeroBits 16 28 = true) : encodeS w.op w.wdata = w := by
  apply BitVec.eq_of_toNat_eq
  rw [CmdWord.zeroBits_iff] at h
  rw [encodeS_toNat, CmdWord.op_toNat_eq_div, CmdWord.wdata, extract_toNat]
  omega

theorem data_eq_zero {n : Nat} (hn : 8 ≤ n) (h : w.zeroBits 0 n = true) : w.data = 0#8 := by
  apply BitVec.eq_of_toNat_eq
  rw [CmdWord.zeroBits_iff, Nat.pow_zero, Nat.div_one] at h
  rw [CmdWord.data, extract_toNat, Nat.pow_zero, Nat.div_one]
  exact Nat.mod_eq_zero_of_dvd ((Nat.pow_dvd_pow 2 hn).trans (Nat.dvd_of_mod_eq_zero h))

theorem zeroBits_iff_getLsbD (lo n : Nat) :
    w.zeroBits lo n = true ↔ ∀ j, lo ≤ j → j < lo + n → w.getLsbD j = false := by
  refine beq_iff_eq.trans ⟨fun h j h1 h2 => ?_, fun h => BitVec.eq_of_getLsbD_eq fun j hj => ?_⟩
  · have := congrArg (·.getLsbD (j - lo)) h
    simpa [show j - lo < n by omega, show lo + (j - lo) = j by omega] using this
  · simpa [hj] using h (lo + j) (by omega) (by omega)

/-- Inside a field of 0s lie fields of 0s. -/
theorem zeroBits_of_wider (lo n lo' n' : Nat) (hlo : lo' ≤ lo) (hn : lo + n ≤ lo' + n')
    (h : w.zeroBits lo' n' = true) : w.zeroBits lo n = true :=
  (zeroBits_iff_getLsbD w lo n).2 fun j h1 h2 =>
    (zeroBits_iff_getLsbD w lo' n').1 h j (by omega) (by omega)

end Fields

theorem data_setWidth_word {w : CmdWord} (h : w.zeroBits 8 36 = true) :
    w.data.setWidth 16 = w.wdata := by
  apply BitVec.eq_of_toNat_eq
  rw [CmdWord.zeroBits_iff] at h
  rw [BitVec.toNat_setWidth, CmdWord.data, CmdWord.wdata, extract_toNat, extract_toNat]
  omega

/-- Settles O9: an accepted word is the fields of its format, and its command keeps them all. -/
theorem encodeOfDecode : Obligations.EncodeOfDecode := by
  intro w i h
  cases decode_accepted h with
  | read hop hz =>
    have hB := encodeB_of_fields w (zeroBits_of_wider w 8 4 0 12 (by omega) (by omega) hz)
    rw [hop, data_eq_zero w (by omega) hz] at hB
    exact ⟨rfl, hB⟩
  | write hop hz =>
    have hB := encodeB_of_fields w hz
    rw [hop] at hB
    exact ⟨rfl, hB⟩
  | installReadHandler hop | installWriteHandler hop =>
    have hI := encodeI_of_fields w
    rw [hop] at hI
    exact ⟨rfl, hI⟩
  | readOperand hop hz =>
    have hO := encodeO_of_fields w (zeroBits_of_wider w 8 30 0 38 (by omega) (by omega) hz)
    rw [hop, data_eq_zero w (by omega) hz] at hO
    rw [readOperand_wellFormed, encode_readOperand]
    exact ⟨Mode.ofCode_wellFormed w.mode, hO⟩
  | writeOperand hop hz =>
    have hO := encodeO_of_fields w hz
    rw [hop] at hO
    rw [writeOperand_wellFormed, encode_writeOperand]
    exact ⟨Mode.ofCode_wellFormed w.mode, hO⟩
  | resetForNextInstruction hop hz | pop hop hz | popWord hop hz =>
    have hN := encodeN_of_fields w hz
    rw [hop] at hN
    exact ⟨rfl, hN⟩
  | push hop hz =>
    have hS := encodeS_of_fields w (zeroBits_of_wider w 16 28 8 36 (by omega) (by omega) hz)
    rw [hop, ← data_setWidth_word hz] at hS
    exact ⟨rfl, hS⟩
  | pushWord hop hz =>
    have hS := encodeS_of_fields w hz
    rw [hop] at hS
    exact ⟨rfl, hS⟩

/-! ### The spec's own tables -/

/-- Settles O7: the decoder run on each word of the table. -/
theorem sampleWordsDecode : Obligations.SampleWordsDecode := by
  unfold Obligations.SampleWordsDecode
  decide

/-- Settles O12: the decoder of the `MODE` field and the operand-byte column, code by code. -/
theorem modeNumbers : Obligations.ModeNumbers :=
  ⟨by decide, by decide, by decide⟩

end Sys2Proof
end

section
/-! SUPPORT. The opcode table (30_encoding.md section 7): a row as the bits it fixes, and the commands
its words decode to. -/

namespace Sys2Proof

/-! ### A row by its bits -/

/-- The bits from `top` up, and the `n` bits from `lo` up. -/
def rowMask (top lo n : Nat) : CmdWord :=
  BitVec.allOnes 48 <<< top ||| (BitVec.allOnes 48 >>> (48 - n)) <<< lo

theorem rowMask_getLsbD {top lo n j : Nat} (hn : lo + n ≤ top) (htop : top ≤ 48) (hj : j < 48) :
    (rowMask top lo n).getLsbD j = decide (top ≤ j ∨ lo ≤ j ∧ j < lo + n) := by
  simp only [rowMask, BitVec.getLsbD_or, BitVec.getLsbD_shiftLeft, BitVec.getLsbD_ushiftRight,
    BitVec.getLsbD_allOnes]
  simp only [← decide_not, ← Bool.decide_and, ← Bool.decide_or, decide_eq_decide]
  omega

/-- The bits of a word from `top` up, as a number. -/
theorem div_two_pow_eq_iff (w : CmdWord) (top code : Nat) :
    w.toNat / 2 ^ top = code ↔ ∀ j, top ≤ j → w.getLsbD j = code.testBit (j - top) := by
  refine ⟨fun h j hj => ?_, fun h => Nat.eq_of_testBit_eq fun k => ?_⟩
  · rw [← h, Nat.testBit_div_two_pow, Nat.sub_add_cancel hj]
    rfl
  · have := h (k + top) (by omega)
    rwa [Nat.add_sub_cancel, BitVec.getLsbD, ← Nat.testBit_div_two_pow] at this

/-- A row of the table: its name, the bits from `top` up, and the `n` bits from `lo` up that are
reserved. -/
def tableRow (name : String) (top code lo n : Nat) : Row :=
  ⟨name, BitVec.ofNat 48 code <<< top, rowMask top lo n⟩

theorem tableRow_admits {name : String} {top code lo n : Nat} {w : CmdWord} (hn : lo + n ≤ top)
    (htop : top ≤ 48) (hcode : code < 2 ^ (48 - top)) :
    (tableRow name top code lo n).admits w = true ↔
      w.toNat / 2 ^ top = code ∧ w.zeroBits lo n = true := by
  have hfixed (j : Nat) (hj : j < 48) :
      (BitVec.ofNat 48 code <<< top).getLsbD j = (decide (top ≤ j) && code.testBit (j - top)) := by
    simp only [BitVec.getLsbD_shiftLeft, BitVec.getLsbD_ofNat, hj, show j - top < 48 by omega,
      decide_true, Bool.true_and, ← decide_not, Nat.not_lt]
  rw [div_two_pow_eq_iff, zeroBits_iff_getLsbD]
  refine beq_iff_eq.trans ⟨fun h => ⟨fun j hj => ?_, fun j h1 h2 => ?_⟩, fun ⟨h1, h2⟩ =>
    BitVec.eq_of_getLsbD_eq fun j hj => ?_⟩
  · by_cases hj' : j < 48
    · have := congrArg (·.getLsbD j) h
      simpa [tableRow, hfixed j hj', rowMask_getLsbD hn htop hj', hj] using this
    · rw [BitVec.getLsbD_of_ge w j (by omega), Nat.testBit_lt_two_pow]
      exact hcode.trans_le (Nat.pow_le_pow_right (by omega) (by omega))
  · have := congrArg (·.getLsbD j) h
    simpa [tableRow, hfixed j (by omega), rowMask_getLsbD hn htop (show j < 48 by omega), h1, h2,
      show ¬ top ≤ j by omega] using this
  · by_cases htj : top ≤ j
    · simp [tableRow, hfixed j hj, rowMask_getLsbD hn htop hj, htj, h1 j htj]
    · by_cases hz : lo ≤ j ∧ j < lo + n
      · simp [tableRow, hfixed j hj, htj, h2 j hz.1 hz.2]
      · simp [tableRow, hfixed j hj, rowMask_getLsbD hn htop hj, htj, hz]

/-- The row of a format without a mode: its `OP` and its reserved bits. -/
def plainRow (name : String) (op : BitVec 4) (lo n : Nat) : Row := tableRow name 44 op.toNat lo n

/-- The row of an operand command: its `OP`, its mode and its reserved bits. -/
def operandRow (name : String) (op : BitVec 4) (m : Mode) (lo n : Nat) : Row :=
  tableRow name 40 (op.toNat * 16 + m.code.toNat) lo n

/-- The modes with a row: all but 11 to 15. -/
def namedModes : List Mode :=
  [.none, .direct, .immediate, .zeroPage, .absolute, .zeroPageX, .zeroPageY, .absoluteX, .absoluteY,
    .indirectX, .indirectY]

def readOperandRow (m : Mode) : Row :=
  operandRow ((Instr.readOperand ⟨m, false, false⟩).mnemonic.getD "") 0x4#4 m 0 38

def writeOperandRow (m : Mode) : Row :=
  operandRow ((Instr.writeOperand ⟨m, false, false⟩ 0).mnemonic.getD "") 0x5#4 m 8 30

theorem opcodeRowsPlain_eq : opcodeRowsPlain =
    [plainRow "read" 0x0#4 0 12, plainRow "write" 0x1#4 8 4,
      plainRow "installReadHandler" 0x2#4 0 0, plainRow "installWriteHandler" 0x3#4 0 0,
      plainRow "resetForNextInstruction" 0x6#4 0 44, plainRow "push" 0x8#4 8 36,
      plainRow "pop" 0x9#4 0 44, plainRow "pushWord" 0xA#4 16 28,
      plainRow "popWord" 0xB#4 0 44] := by decide

theorem opcodeRowsReadOperand_eq : opcodeRowsReadOperand = namedModes.map readOperandRow := by
  decide

theorem opcodeRowsWriteOperand_eq : opcodeRowsWriteOperand = namedModes.map writeOperandRow := by
  decide

theorem opcodeRows_nodup : (opcodeRows.map Row.mnemonic).Nodup := by decide

theorem mem_namedModes {m : Mode} : m ∈ namedModes ↔ ∀ c, m ≠ .outside c := by
  cases m <;> simp [namedModes]

theorem plainRow_admits {name : String} {op : BitVec 4} {lo n : Nat} {w : CmdWord}
    (hn : lo + n ≤ 44) :
    (plainRow name op lo n).admits w = true ↔ w.op = op ∧ w.zeroBits lo n = true := by
  rw [plainRow, tableRow_admits hn (by omega) op.isLt, ← CmdWord.op_toNat_eq_div, BitVec.toNat_inj]

theorem operandRow_admits {name : String} {op : BitVec 4} {m : Mode} {lo n : Nat} {w : CmdWord}
    (hn : lo + n ≤ 40) : (operandRow name op m lo n).admits w = true ↔
      w.op = op ∧ w.mode = m.code ∧ w.zeroBits lo n = true := by
  have hop := op.isLt
  have hm := m.code.isLt
  rw [operandRow, tableRow_admits hn (by omega) (by omega), ← and_assoc, BitVec.toNat_eq,
    BitVec.toNat_eq, CmdWord.op_toNat_eq_div, CmdWord.mode, extract_toNat]
  refine and_congr_left fun _ => ?_
  omega

theorem readOperand_mnemonic {d : Descriptor} (h : d.mode ∈ namedModes) :
    (Instr.readOperand d).mnemonic = some (readOperandRow d.mode).mnemonic := by
  obtain ⟨m, p, r⟩ := d
  cases m with
  | outside c => exact absurd rfl (mem_namedModes.1 h c)
  | _ => rfl

theorem writeOperand_mnemonic {d : Descriptor} (v : Byte) (h : d.mode ∈ namedModes) :
    (Instr.writeOperand d v).mnemonic = some (writeOperandRow d.mode).mnemonic := by
  obtain ⟨m, p, r⟩ := d
  cases m with
  | outside c => exact absurd rfl (mem_namedModes.1 h c)
  | _ => rfl

theorem readOperand_mode_named {d : Descriptor} {name : String}
    (h : (Instr.readOperand d).mnemonic = some name) : d.mode ∈ namedModes := by
  obtain ⟨m, p, r⟩ := d
  refine mem_namedModes.2 fun c hc => ?_
  obtain rfl : m = .outside c := hc
  cases h

theorem writeOperand_mode_named {d : Descriptor} {v : Byte} {name : String}
    (h : (Instr.writeOperand d v).mnemonic = some name) : d.mode ∈ namedModes := by
  obtain ⟨m, p, r⟩ := d
  refine mem_namedModes.2 fun c hc => ?_
  obtain rfl : m = .outside c := hc
  cases h

theorem descriptor_mode_of_code {w : CmdWord} {m : Mode} (hm : m ∈ namedModes)
    (h : w.mode = m.code) : w.descriptor.mode = m := by
  have hwf : m.wellFormed = true := by
    cases m with
    | outside c => exact absurd rfl (mem_namedModes.1 hm c)
    | _ => rfl
  rw [CmdWord.descriptor, h, Mode.ofCode_code m hwf]

/-- A word that matches a row decodes to a command of its name. -/
theorem accepted_of_admits {row : Row} {w : CmdWord} (hrow : row ∈ opcodeRows)
    (h : row.admits w = true) : ∃ i, Accepted w i ∧ i.mnemonic = some row.mnemonic := by
  simp only [opcodeRows, List.mem_append, opcodeRowsReadOperand_eq, opcodeRowsWriteOperand_eq,
    List.mem_map] at hrow
  obtain (hrow | ⟨m, hm, rfl⟩) | ⟨m, hm, rfl⟩ := hrow
  · rw [opcodeRowsPlain_eq] at hrow
    fin_cases hrow
    all_goals obtain ⟨hop, hz⟩ := (plainRow_admits (by decide)).1 h
    · exact ⟨_, .read hop hz, rfl⟩
    · exact ⟨_, .write hop hz, rfl⟩
    · exact ⟨_, .installReadHandler hop, rfl⟩
    · exact ⟨_, .installWriteHandler hop, rfl⟩
    · exact ⟨_, .resetForNextInstruction hop hz, rfl⟩
    · exact ⟨_, .push hop hz, rfl⟩
    · exact ⟨_, .pop hop hz, rfl⟩
    · exact ⟨_, .pushWord hop hz, rfl⟩
    · exact ⟨_, .popWord hop hz, rfl⟩
  · obtain ⟨hop, hmode, hz⟩ := (operandRow_admits (by omega)).1 h
    have hd := descriptor_mode_of_code hm hmode
    exact ⟨_, .readOperand hop hz, by rw [readOperand_mnemonic (hd ▸ hm), hd]⟩
  · obtain ⟨hop, hmode, hz⟩ := (operandRow_admits (by omega)).1 h
    have hd := descriptor_mode_of_code hm hmode
    exact ⟨_, .writeOperand hop hz, by rw [writeOperand_mnemonic _ (hd ▸ hm), hd]⟩

theorem mem_opcodeRows_plain {row : Row} (h : row ∈ opcodeRowsPlain) : row ∈ opcodeRows :=
  List.mem_append_left _ (List.mem_append_left _ h)

theorem readOperandRow_mem {m : Mode} (h : m ∈ namedModes) : readOperandRow m ∈ opcodeRows :=
  List.mem_append_left _ (List.mem_append_right _
    (opcodeRowsReadOperand_eq ▸ List.mem_map_of_mem h))

theorem writeOperandRow_mem {m : Mode} (h : m ∈ namedModes) : writeOperandRow m ∈ opcodeRows :=
  List.mem_append_right _ (opcodeRowsWriteOperand_eq ▸ List.mem_map_of_mem h)

theorem descriptor_mode_code (w : CmdWord) : w.mode = w.descriptor.mode.code :=
  (Mode.code_ofCode w.mode).symm

/-- A word that selects no operand command matches the row of its `OP`. -/
theorem exists_plainRow_admits {name : String} {op : BitVec 4} {lo n : Nat} {w : CmdWord}
    (hmem : plainRow name op lo n ∈ opcodeRowsPlain) (hn : lo + n ≤ 44) (hop : w.op = op)
    (hz : w.zeroBits lo n = true) :
    ∃ row ∈ opcodeRows, row.mnemonic = name ∧ row.admits w = true :=
  ⟨_, mem_opcodeRows_plain hmem, rfl, (plainRow_admits hn).2 ⟨hop, hz⟩⟩

/-- A word that decodes to a named command matches a row of that name. -/
theorem exists_row_admits {w : CmdWord} {i : Instr} {name : String} (h : Accepted w i)
    (hname : i.mnemonic = some name) :
    ∃ row ∈ opcodeRows, row.mnemonic = name ∧ row.admits w = true := by
  cases h with
  | readOperand hop hz =>
    have hm := readOperand_mode_named hname
    rw [readOperand_mnemonic hm, Option.some.injEq] at hname
    exact ⟨_, readOperandRow_mem hm, hname,
      (operandRow_admits (by omega)).2 ⟨hop, descriptor_mode_code w, hz⟩⟩
  | writeOperand hop hz =>
    have hm := writeOperand_mode_named hname
    rw [writeOperand_mnemonic _ hm, Option.some.injEq] at hname
    exact ⟨_, writeOperandRow_mem hm, hname,
      (operandRow_admits (by omega)).2 ⟨hop, descriptor_mode_code w, hz⟩⟩
  | installReadHandler hop | installWriteHandler hop =>
    obtain rfl := Option.some.inj hname
    exact exists_plainRow_admits (lo := 0) (n := 0) (by decide) (by decide) hop
      ((CmdWord.zeroBits_iff w 0 0).2 (Nat.mod_one _))
  | read hop hz | write hop hz | resetForNextInstruction hop hz | push hop hz | pop hop hz
  | pushWord hop hz | popWord hop hz =>
    obtain rfl := Option.some.inj hname
    exact exists_plainRow_admits (by decide) (by decide) hop hz

/-- Settles O11: from a row to the command it names, and back to a row of the same name, which is
the row itself, since no two rows have one name. -/
theorem rowsAreTheDecoder : Obligations.RowsAreTheDecoder := by
  intro row hrow w
  constructor
  · intro h
    obtain ⟨i, hi, hname⟩ := accepted_of_admits hrow h
    exact ⟨i, decode_of_accepted hi, hname⟩
  · rintro ⟨i, hi, hname⟩
    obtain ⟨row', hrow', hname', h⟩ := exists_row_admits (decode_accepted hi) hname
    rwa [← List.inj_on_of_nodup_map opcodeRows_nodup hrow' hrow hname']

end Sys2Proof
end

section
/-! SUPPORT. What a command that completes or faults can do, said once for all commands. -/

namespace Sys2Proof.Machine

/-! ### A command by its descriptor -/

theorem descriptor_of_read {i : Instr} {d : Descriptor} (h : i.readDescriptor = some d) :
    i.descriptor = some d := by
  simp [Instr.descriptor, h]

theorem readDescriptor_of_write {i : Instr} {p : Descriptor × Byte}
    (h : i.writeDescriptor = some p) : i.readDescriptor = none := by
  rw [eq_writeOperand h]
  obtain ⟨⟨m, pbp, rmw⟩, v⟩ := p
  cases m <;> rfl

theorem descriptor_of_write {i : Instr} {d : Descriptor} {v : Byte}
    (h : i.writeDescriptor = some (d, v)) : i.descriptor = some d := by
  simp [Instr.descriptor, readDescriptor_of_write h, h]

/-! ### A command that completes -/

/-- All a command that completes can do: the shared operation of its kind has answered, and the
response is set. -/
inductive Completed (s : State) : Instr → State → Prop
  | read {addr : RawAddr} {v : Byte} {u : State} (h : memRead addr s = .done v u) :
      Completed s (.read addr) { u with rsp := some (v.setWidth 16) }
  | write (addr : RawAddr) (v : Byte) :
      Completed s (.write addr v) { memWrite addr v s with rsp := none }
  | installReadHandler (start stop : Word) (hid : HandlerId) :
      Completed s (.installReadHandler start stop hid)
        { s with rt := s.rt.install start stop hid, rsp := none }
  | installWriteHandler (start stop : Word) (hid : HandlerId) :
      Completed s (.installWriteHandler start stop hid)
        { s with wt := s.wt.install start stop hid, rsp := none }
  | readDirect {i : Instr} {d : Descriptor} (hi : i.readDescriptor = some d)
      (hd : d.mode = .direct) : Completed s i { s with rsp := some (s.a.setWidth 16) }
  | writeDirect {i : Instr} {d : Descriptor} {v : Byte} (hi : i.writeDescriptor = some (d, v))
      (hd : d.mode = .direct) : Completed s i { s with a := v, rsp := none }
  | readOperand {i : Instr} {d : Descriptor} {e : EffAddr} {v : Byte} {u w : State}
      (hi : i.readDescriptor = some d) (hd : d.mode ≠ .direct)
      (he : effectiveAddress d s = .done e u) (h : memRead (e.setWidth 32) u = .done v w) :
      Completed s i { w with lr := some v, rsp := some (v.setWidth 16) }
  | writeOperand {i : Instr} {d : Descriptor} {v : Byte} {e : EffAddr} {u : State}
      (hi : i.writeDescriptor = some (d, v)) (hd : d.mode ≠ .direct)
      (he : effectiveAddress d s = .done e u) :
      Completed s i { storeOperand d.rmw v e u with rsp := none }
  | resetForNextInstruction :
      Completed s .resetForNextInstruction { s with ea := none, lr := none, rsp := none }
  | push (v : Byte) : Completed s (.push v) { pushByte v s with rsp := none }
  | pop {v : Byte} {u : State} (h : popByte s = .done v u) :
      Completed s .pop { u with rsp := some (v.setWidth 16) }
  | pushWord (w : Word) : Completed s (.pushWord w) { pushBytes w s with rsp := none }
  | popWord {w : Word} {u : State} (h : popBytes s = .done w u) :
      Completed s .popWord { u with rsp := some w }

theorem completed_of_readDescriptor {i : Instr} {d : Descriptor} {s t : State}
    (hi : i.readDescriptor = some d) (h : exec i s = .next t) : Completed s i t := by
  rw [exec_readDescriptor hi] at h
  obtain ⟨v, u, hu, rfl⟩ := completeByte_next h
  obtain ⟨hd, rfl, rfl⟩ | ⟨hd, e, u', he, w, hw, rfl⟩ := readOperand_done hu
  · exact .readDirect hi hd
  · exact Completed.readOperand (w := w) hi hd he hw

theorem completed_of_writeDescriptor {i : Instr} {d : Descriptor} {v : Byte} {s t : State}
    (hi : i.writeDescriptor = some (d, v)) (h : exec i s = .next t) : Completed s i t := by
  rw [exec_writeDescriptor hi] at h
  obtain ⟨u, hu, rfl⟩ := completeUnit_next h
  obtain ⟨hd, rfl⟩ | ⟨hd, e, u', he, rfl⟩ := writeOperand_done hu
  · exact .writeDirect hi hd
  · exact .writeOperand hi hd he

theorem exec_completed {i : Instr} {s t : State} (h : exec i s = .next t) : Completed s i t := by
  cases i with
  | read addr =>
    obtain ⟨v, u, hu, rfl⟩ := completeByte_next h
    exact .read hu
  | write addr v =>
    injection h with h
    exact h ▸ .write addr v
  | installReadHandler start stop hid =>
    injection h with h
    exact h ▸ .installReadHandler start stop hid
  | installWriteHandler start stop hid =>
    injection h with h
    exact h ▸ .installWriteHandler start stop hid
  | readOperandNone | readOperandDir | readOperandImm | readOperandZp | readOperandAbs
  | readOperandZpx | readOperandZpy | readOperandAbsx | readOperandAbsy | readOperandIndx
  | readOperandIndy | readOperandOutside => exact completed_of_readDescriptor rfl h
  | writeOperandNone | writeOperandDir | writeOperandImm | writeOperandZp | writeOperandAbs
  | writeOperandZpx | writeOperandZpy | writeOperandAbsx | writeOperandAbsy | writeOperandIndx
  | writeOperandIndy | writeOperandOutside => exact completed_of_writeDescriptor rfl h
  | resetForNextInstruction =>
    injection h with h
    exact h ▸ .resetForNextInstruction
  | push v =>
    injection h with h
    exact h ▸ .push v
  | pop =>
    obtain ⟨v, u, hu, rfl⟩ := completeByte_next h
    exact .pop hu
  | pushWord w =>
    injection h with h
    exact h ▸ .pushWord w
  | popWord =>
    obtain ⟨v, u, hu, rfl⟩ := completeWord_next h
    exact .popWord hu

/-! ### What it leaves behind -/

/-- All `effectiveAddress` leaves alone when it answers. -/
theorem effectiveAddress_afterReads {d : Descriptor} {s u : State} {e : EffAddr}
    (h : effectiveAddress d s = .done e u) :
    (∃ events n, AfterReads s u events n) ∧ u.sp = s.sp ∧ u.lr = s.lr ∧ u.ea = some e := by
  obtain ⟨he, rfl⟩ | ⟨-, u', hu, rfl⟩ := effectiveAddress_done h
  · exact ⟨⟨_, _, AfterReads.refl u⟩, rfl, rfl, he⟩
  · have hr := resolve_done hu
    obtain ⟨events, n, h⟩ := hr.reads
    exact ⟨⟨events, n, ⟨h.bound, h.a, h.x, h.y, h.rt, h.wt, h.fault, h.rsp, h.bus, h.inputs,
      h.answers, h.draws⟩⟩, hr.sp, hr.lr, rfl⟩

/-- A word pop that answers is two byte pops (R184). -/
theorem popBytes_done {s t : State} {w : Word} (h : popBytes s = .done w t) :
    (∃ events n, AfterReads s t events n) ∧ t.pc = s.pc ∧ t.cyc = s.cyc ∧ t.ea = s.ea ∧
      t.lr = s.lr := by
  obtain ⟨lo, u, h0, h⟩ := andThen_eq_done.1 h
  obtain ⟨hi, v, h1, h⟩ := andThen_eq_done.1 h
  injection h with _ h
  subst h
  obtain ⟨_, r0, -, -, pc0, cyc0, ea0, lr0⟩ := popByte_done h0
  obtain ⟨_, r1, -, -, pc1, cyc1, ea1, lr1⟩ := popByte_done h1
  exact ⟨⟨_, _, r0.trans r1⟩, pc1.trans pc0, cyc1.trans cyc0, ea1.trans ea0, lr1.trans lr0⟩

/-- What every command that completes has in common: it adds these bus events, each at the handler
its address is bound to, takes `n` answers and draws `k` values besides those the answers needed. -/
structure Effect (s t : State) (events : List BusEvent) (n k : Nat) : Prop where
  bound : ∀ e ∈ events, e.goesToBound s
  x : t.x = s.x
  y : t.y = s.y
  fault : t.fault = s.fault
  inputs : t.inputs = s.inputs
  bus : t.bus = s.bus ++ events
  answers : t.answers = s.answers.drop n
  draws : t.draws = s.draws + (n - s.answers.length) + k

theorem AfterReads.effect {s t : State} {events : List BusEvent} {n : Nat}
    (h : AfterReads s t events n) : Effect s t events n 0 where
  bound e he := by
    obtain ⟨hid, a, v, rfl, hm⟩ := h.bound e he
    exact hm
  x := h.x
  y := h.y
  fault := h.fault
  inputs := h.inputs
  bus := h.bus
  answers := h.answers
  draws := h.draws

theorem Effect.trans {s t u : State} {xs ys : List BusEvent} {n m j k : Nat}
    (h : Effect s t xs n j) (hrt : t.rt = s.rt) (hwt : t.wt = s.wt) (h' : Effect t u ys m k) :
    Effect s u (xs ++ ys) (n + m) (j + k) where
  bound := List.forall_mem_append.2 ⟨h.bound, fun e he => by
    have := h'.bound e he
    cases e <;> simpa only [BusEvent.goesToBound, hrt, hwt] using this⟩
  x := h'.x.trans h.x
  y := h'.y.trans h.y
  fault := h'.fault.trans h.fault
  inputs := h'.inputs.trans h.inputs
  bus := by rw [h'.bus, h.bus, List.append_assoc]
  answers := by rw [h'.answers, h.answers, List.drop_drop]
  draws := by rw [h'.draws, h.draws, h.answers, List.length_drop]; omega

/-- Registers outside the common part set anew. -/
theorem Effect.congr {s t u : State} {events : List BusEvent} {n k : Nat}
    (h : Effect s t events n k) (hx : u.x = t.x) (hy : u.y = t.y) (hf : u.fault = t.fault)
    (hi : u.inputs = t.inputs) (hb : u.bus = t.bus) (ha : u.answers = t.answers)
    (hd : u.draws = t.draws) : Effect s u events n k :=
  ⟨h.bound, hx.trans h.x, hy.trans h.y, hf.trans h.fault, hi.trans h.inputs, hb.trans h.bus,
    ha.trans h.answers, hd.trans h.draws⟩

theorem Effect.refl (s : State) : Effect s s [] 0 0 := (AfterReads.refl s).effect

theorem writeEvents_goesToBound {s : State} {a : Word} {v : Byte} :
    ∀ x ∈ writeEvents s a v, x.goesToBound s := by
  intro x hx
  obtain ⟨hid, rfl, hm⟩ := mem_writeEvents hx
  exact hm

/-- Writes to bound handlers, and `k` values drawn. -/
theorem effect_of_writes {s : State} {events : List BusEvent} (k : Nat)
    (h : ∀ e ∈ events, e.goesToBound s) :
    Effect s { s with bus := s.bus ++ events, draws := s.draws + k } events 0 k :=
  ⟨h, rfl, rfl, rfl, rfl, rfl, rfl, by simp⟩

theorem storeOperand_effect (rmw : Bool) (v : Byte) (e : EffAddr) (s : State) :
    ∃ events, Effect s (storeOperand rmw v e s) events 0
      (if rmw = true ∧ s.lr = none then 1 else 0) := by
  obtain ⟨events, hbound, heq⟩ := storeOperand_eq rmw v e s
  rw [heq]
  refine ⟨events, effect_of_writes _ fun x hx => ?_⟩
  obtain ⟨hid, b, rfl, hm⟩ := hbound x hx
  exact hm

/-- A value is drawn besides those the answers need only by a read-modify-write store with no
last-read value (R161 corner case c). -/
def drawsFor (i : Instr) (s : State) : Prop :=
  ∃ d v, i.writeDescriptor = some (d, v) ∧ d.mode ≠ .direct ∧ d.rmw = true ∧ s.lr = none

theorem exec_effect {i : Instr} {s t : State} (h : exec i s = .next t) :
    ∃ events n k, Effect s t events n k ∧ (k ≠ 0 → drawsFor i s) := by
  cases exec_completed h with
  | read hm =>
    obtain ⟨_, hr, -⟩ := memRead_afterReads hm
    exact ⟨_, _, 0, hr.effect.congr rfl rfl rfl rfl rfl rfl rfl, nofun⟩
  | write addr v =>
    rw [memWrite_eq]
    exact ⟨_, _, 0, (effect_of_writes 0 writeEvents_goesToBound).congr rfl rfl rfl rfl rfl rfl rfl,
      nofun⟩
  | installReadHandler | installWriteHandler | readDirect | writeDirect
  | resetForNextInstruction =>
    exact ⟨_, _, 0, (Effect.refl s).congr rfl rfl rfl rfl rfl rfl rfl, nofun⟩
  | readOperand hi hd he hm =>
    obtain ⟨⟨_, _, hr⟩, -⟩ := effectiveAddress_afterReads he
    obtain ⟨_, hr', -⟩ := memRead_afterReads hm
    exact ⟨_, _, 0, (hr.trans hr').effect.congr rfl rfl rfl rfl rfl rfl rfl, nofun⟩
  | writeOperand hi hd he =>
    obtain ⟨⟨_, _, hr⟩, -, hlr, -⟩ := effectiveAddress_afterReads he
    obtain ⟨_, hw⟩ := storeOperand_effect _ _ _ _
    refine ⟨_, _, _, (hr.effect.trans hr.rt hr.wt hw).congr rfl rfl rfl rfl rfl rfl rfl,
      fun hk => ⟨_, _, hi, hd, ?_⟩⟩
    rw [← hlr]
    by_contra hne
    exact hk (by rw [if_neg hne])
  | push v =>
    rw [pushByte_eq]
    exact ⟨_, _, 0, (effect_of_writes 0 writeEvents_goesToBound).congr rfl rfl rfl rfl rfl rfl rfl,
      nofun⟩
  | pop hm =>
    obtain ⟨_, hr, -⟩ := popByte_done hm
    exact ⟨_, _, 0, hr.effect.congr rfl rfl rfl rfl rfl rfl rfl, nofun⟩
  | pushWord w =>
    rw [pushBytes_eq, List.append_assoc]
    exact ⟨_, _, 0, (effect_of_writes 0 (List.forall_mem_append.2
      ⟨writeEvents_goesToBound, writeEvents_goesToBound⟩)).congr rfl rfl rfl rfl rfl rfl rfl, nofun⟩
  | popWord hm =>
    obtain ⟨⟨_, _, hr⟩, -⟩ := popBytes_done hm
    exact ⟨_, _, 0, hr.effect.congr rfl rfl rfl rfl rfl rfl rfl, nofun⟩

/-- What an operand command does to the memo, `PC` and `CYC`: nothing in Direct mode and where an
address is memoized; else it resolves the address and memoizes it. -/
inductive Access (d : Descriptor) (s t : State) : Prop
  | direct (hd : d.mode = .direct) (hea : t.ea = s.ea) (hpc : t.pc = s.pc) (hcyc : t.cyc = s.cyc)
      (hlr : t.lr = s.lr)
  | memoized {e : EffAddr} (hs : s.ea = some e) (ht : t.ea = some e) (hpc : t.pc = s.pc)
      (hcyc : t.cyc = s.cyc)
  | resolved {e : EffAddr} {u : State} (hs : s.ea = none) (ht : t.ea = some e)
      (hr : Resolved d s u e) (hpc : t.pc = u.pc) (hcyc : t.cyc = u.cyc)

theorem access_of_effectiveAddress {d : Descriptor} {s u t : State} {e : EffAddr}
    (h : effectiveAddress d s = .done e u) (hea : t.ea = u.ea) (hpc : t.pc = u.pc)
    (hcyc : t.cyc = u.cyc) : Access d s t := by
  obtain ⟨he, rfl⟩ | ⟨he, u', hu, rfl⟩ := effectiveAddress_done h
  · exact .memoized he (hea.trans he) hpc hcyc
  · exact .resolved he hea (resolve_done hu) hpc hcyc

theorem exec_access {i : Instr} {d : Descriptor} {s t : State} (hi : i.descriptor = some d)
    (h : exec i s = .next t) : Access d s t := by
  cases exec_completed h with
  | readDirect hi' hd =>
    obtain rfl := Option.some.inj ((descriptor_of_read hi').symm.trans hi)
    exact .direct hd rfl rfl rfl rfl
  | writeDirect hi' hd =>
    obtain rfl := Option.some.inj ((descriptor_of_write hi').symm.trans hi)
    exact .direct hd rfl rfl rfl rfl
  | readOperand hi' hd he hm =>
    obtain rfl := Option.some.inj ((descriptor_of_read hi').symm.trans hi)
    obtain ⟨_, -, -, hpc, hcyc, -, hea, -⟩ := memRead_afterReads hm
    exact access_of_effectiveAddress he hea hpc hcyc
  | writeOperand hi' hd he =>
    obtain rfl := Option.some.inj ((descriptor_of_write hi').symm.trans hi)
    obtain ⟨_, -, heq⟩ := storeOperand_eq _ _ _ _
    rw [heq]
    exact access_of_effectiveAddress he rfl rfl rfl
  | _ => cases hi

end Sys2Proof.Machine
end

section
/-! SUPPORT. The faults (60_exceptions.md): which command raises which, and after what. -/

namespace Sys2Proof.Machine

/-! ### The shared operations that fault -/

theorem popByte_raised {s : State} {f : Fault} (h : popByte s = .raised f) : raisedByRead s f := by
  have hsp : AfterReads s { s with sp := s.sp + 1#8 } [] 0 := by
    constructor <;> simp [boundReads_nil]
  exact (memRead_raised h).after hsp

theorem popBytes_raised {s : State} {f : Fault} (h : popBytes s = .raised f) :
    raisedByRead s f := by
  rcases andThen_eq_raised.1 h with h | ⟨_, _, h0, h⟩
  · exact popByte_raised h
  obtain ⟨_, r0, -⟩ := popByte_done h0
  rcases andThen_eq_raised.1 h with h | ⟨_, _, _, h⟩
  · exact (popByte_raised h).after r0
  · cases h

/-- `f` is the fault of a descriptor whose mode has no rule, with nothing memoized (R144, R145,
R201). -/
def raisedByMode (d : Descriptor) (s : State) (f : Fault) : Prop :=
  s.ea = none ∧ d.mode ≠ .direct ∧ d.mode.resolvable = false ∧
    f = raiseUnimplementedMode d.mode.code s

theorem effectiveAddress_raised_cases {d : Descriptor} {s : State} {f : Fault}
    (hd : d.mode ≠ .direct) (h : effectiveAddress d s = .raised f) :
    raisedByRead s f ∨ raisedByMode d s f := by
  obtain ⟨hea, h⟩ := effectiveAddress_raised h
  obtain ⟨-, hf⟩ | ⟨hm, hf⟩ := resolve_raised h
  · exact .inl hf
  · exact .inr ⟨hea, hd, hm, hf⟩

theorem readOperand_raised {d : Descriptor} {s : State} {f : Fault}
    (h : readOperand d s = .raised f) : raisedByRead s f ∨ raisedByMode d s f := by
  unfold readOperand at h
  split at h
  · cases h
  rename_i hd
  rcases andThen_eq_raised.1 h with h | ⟨e, u, he, h⟩
  · exact effectiveAddress_raised_cases hd h
  obtain ⟨⟨_, _, hr⟩, -⟩ := effectiveAddress_afterReads he
  rcases andThen_eq_raised.1 h with h | ⟨_, _, _, h⟩
  · exact .inl ((memRead_raised h).after hr)
  · cases h

theorem writeOperand_raised {d : Descriptor} {v : Byte} {s : State} {f : Fault}
    (h : writeOperand d v s = .raised f) : raisedByRead s f ∨ raisedByMode d s f := by
  unfold writeOperand at h
  split at h
  · cases h
  rename_i hd
  rcases andThen_eq_raised.1 h with h | ⟨_, _, _, h⟩
  · exact effectiveAddress_raised_cases hd h
  · cases h

/-! ### A command that faults -/

theorem exec_fault_of_readDescriptor {i : Instr} {d : Descriptor} {s : State} {f : Fault}
    (hi : i.readDescriptor = some d) (h : exec i s = .fault f) :
    raisedByRead s f ∨ ∃ d, i.descriptor = some d ∧ raisedByMode d s f := by
  rw [exec_readDescriptor hi] at h
  exact (readOperand_raised (completeByte_fault h)).imp_right
    fun hf => ⟨d, descriptor_of_read hi, hf⟩

theorem exec_fault_of_writeDescriptor {i : Instr} {d : Descriptor} {v : Byte} {s : State}
    {f : Fault} (hi : i.writeDescriptor = some (d, v)) (h : exec i s = .fault f) :
    raisedByRead s f ∨ ∃ d, i.descriptor = some d ∧ raisedByMode d s f := by
  rw [exec_writeDescriptor hi] at h
  exact (writeOperand_raised (completeUnit_fault h)).imp_right
    fun hf => ⟨d, descriptor_of_write hi, hf⟩

/-- All a command that faults can do: the fault of a read at a default slot, or of a mode without a
rule. -/
theorem exec_fault {i : Instr} {s : State} {f : Fault} (h : exec i s = .fault f) :
    raisedByRead s f ∨ ∃ d, i.descriptor = some d ∧ raisedByMode d s f := by
  cases i with
  | read => exact .inl (memRead_raised (completeByte_fault h))
  | pop => exact .inl (popByte_raised (completeByte_fault h))
  | popWord => exact .inl (popBytes_raised (completeWord_fault h))
  | write | installReadHandler | installWriteHandler | resetForNextInstruction | push | pushWord =>
    cases h
  | readOperandNone | readOperandDir | readOperandImm | readOperandZp | readOperandAbs
  | readOperandZpx | readOperandZpy | readOperandAbsx | readOperandAbsy | readOperandIndx
  | readOperandIndy | readOperandOutside => exact exec_fault_of_readDescriptor rfl h
  | writeOperandNone | writeOperandDir | writeOperandImm | writeOperandZp | writeOperandAbs
  | writeOperandZpx | writeOperandZpy | writeOperandAbsx | writeOperandAbsy | writeOperandIndx
  | writeOperandIndy | writeOperandOutside => exact exec_fault_of_writeDescriptor rfl h

/-- Settles O47: either fault latches its own code and info over the state after some reads, or none. -/
theorem faultEntry : Obligations.FaultEntry := by
  intro i s f h
  obtain ⟨u, events, n, a, hu, -, rfl⟩ | ⟨d, -, -, -, -, rfl⟩ := exec_fault h
  · refine ⟨rfl, rfl, hu.rt, hu.wt, hu.x, hu.y, hu.inputs, events, hu.bus, fun x hx => ?_⟩
    obtain ⟨hid, b, v, rfl, -⟩ := hu.bound x hx
    exact ⟨hid, b, v, rfl⟩
  · exact ⟨rfl, rfl, rfl, rfl, rfl, rfl, rfl, [], (List.append_nil _).symm, nofun⟩

/-- Settles O48: the slot the faulting read met, or the mode without a rule. -/
theorem faultCauses : Obligations.FaultCauses := by
  intro i s f h
  obtain ⟨u, _, _, a, -, ha, rfl⟩ | ⟨d, hi, hea, hdirect, hm, rfl⟩ := exec_fault h
  · exact .inl ⟨rfl, ha⟩
  refine .inr ⟨rfl, hea, d, hi, ?_⟩
  obtain ⟨m, pbp, rmw⟩ := d
  cases m with
  | none => exact .inl ⟨rfl, rfl⟩
  | outside c => exact .inr ⟨c, rfl, by simp [raiseUnimplementedMode, Fault.info, Mode.code]; omega⟩
  | direct => exact absurd rfl hdirect
  | _ => cases hm

end Sys2Proof.Machine
end

section
/-! SUPPORT. The summary of `resolve` by mode (41_resolver.md section 3): each mode's result is the
summary's, and its first unmapped read is the first unmapped address of the summary's list. -/

namespace Sys2Proof.Machine

/-! ### The columns of the summary -/

theorem crosses_wordOf (lo hi i : Byte) :
    crosses (wordOf lo hi) i = decide (256 ≤ lo.toNat + i.toNat) := by
  rw [crosses, wordOf, decide_eq_decide]
  have := lo.isLt
  omega

theorem charge_absoluteX (pbp : Bool) (s : State) : Mode.charge .absoluteX pbp s =
    if pbp = true ∧ 256 ≤ (answerAt s 0).toNat + s.x.toNat then 1 else 0 := by
  simp only [Mode.charge, crosses_wordOf, Bool.and_eq_true, decide_eq_true_eq]

theorem charge_absoluteY (pbp : Bool) (s : State) : Mode.charge .absoluteY pbp s =
    if pbp = true ∧ 256 ≤ (answerAt s 0).toNat + s.y.toNat then 1 else 0 := by
  simp only [Mode.charge, crosses_wordOf, Bool.and_eq_true, decide_eq_true_eq]

theorem charge_indirectY (pbp : Bool) (s : State) : Mode.charge .indirectY pbp s =
    if pbp = true ∧ 256 ≤ (answerAt s 1).toNat + s.y.toNat then 1 else 0 := by
  simp only [Mode.charge, crosses_wordOf, Bool.and_eq_true, decide_eq_true_eq]

theorem allMapped_cons {s : State} {a : Word} {as : List Word} :
    allMapped s (a :: as) = true ↔ (∃ h, s.rt.lookup a = some h) ∧ allMapped s as = true := by
  simp [allMapped, Option.isSome_iff_exists]

/-- A zero-page address of the list, as a number. -/
theorem zeroPage_toNat {n : Nat} (h : n < 256) : (BitVec.ofNat 16 n).toNat = n := by
  rw [BitVec.toNat_ofNat]
  omega

theorem zeroPage_succ_toNat {n : Nat} (h : n < 256) :
    (BitVec.ofNat 16 ((n + 1) % 256)).toNat = ((BitVec.ofNat 16 n).toNat + 1) % 256 := by
  rw [zeroPage_toNat h, zeroPage_toNat (Nat.mod_lt _ (by omega))]

section Events

variable {s : State} {a0 a1 a2 : Word} {h0 h1 h2 : HandlerId} (hm0 : s.rt.lookup a0 = some h0)
include hm0

theorem readEvents_one : readEvents s [a0] = [.read h0 a0 (answerAt s 0)] := by
  simp [readEvents, hm0]

variable (hm1 : s.rt.lookup a1 = some h1)
include hm1

theorem readEvents_two :
    readEvents s [a0, a1] = [.read h0 a0 (answerAt s 0), .read h1 a1 (answerAt s 1)] := by
  simp [readEvents, hm0, hm1]

theorem readEvents_three (hm2 : s.rt.lookup a2 = some h2) : readEvents s [a0, a1, a2] =
    [.read h0 a0 (answerAt s 0), .read h1 a1 (answerAt s 1), .read h2 a2 (answerAt s 2)] := by
  simp [readEvents, hm0, hm1, hm2]

end Events

/-! ### Every read mapped -/

/-- The summary, from a rule's result with its reads written out as events and its charge as `c`. -/
theorem resolve_eq_summary {d : Descriptor} {s : State} {events : List BusEvent} {c : Nat}
    (he : readEvents s (d.mode.addressesRead s) = events) (hc : d.mode.charge d.pbp s = c)
    (h : resolve d s = .done (summaryAddress d s)
      { skipAnswers s (d.mode.addressesRead s).length with
        pc := BitVec.ofNat 16 (s.pc.toNat + d.mode.pcAdvance)
        cyc := s.cyc + c
        bus := s.bus ++ events }) :
    resolve d s = .done (summaryAddress d s) (summaryState d s) := by
  subst he hc
  exact h

/-- Settles O25: the rule of each mode, with its reads in the summary's order. -/
theorem resolveFollowsTheSummary : Obligations.ResolveFollowsTheSummary := by
  rintro ⟨m, pbp, rmw⟩ s hm hmapped
  cases m with
  | none | direct | outside => cases hm
  | immediate =>
    rw [Resolver.resolveImmediate]
    simp [summaryState, summaryAddress, Mode.addressesRead, Mode.result, Mode.charge,
      Mode.pcAdvance, readEvents, skipAnswers]
  | zeroPage =>
    obtain ⟨⟨h, hm⟩, -⟩ := allMapped_cons.1 hmapped
    obtain ⟨hzp, -⟩ := Resolver.resolveZeroPageModes pbp rmw s
    exact resolve_eq_summary (readEvents_one hm) rfl (hzp h hm)
  | zeroPageX =>
    obtain ⟨⟨h, hm⟩, -⟩ := allMapped_cons.1 hmapped
    obtain ⟨-, -, hzpx, -⟩ := Resolver.resolveZeroPageModes pbp rmw s
    exact resolve_eq_summary (readEvents_one hm) rfl (hzpx h hm)
  | zeroPageY =>
    obtain ⟨⟨h, hm⟩, -⟩ := allMapped_cons.1 hmapped
    obtain ⟨-, -, -, -, hzpy, -⟩ := Resolver.resolveZeroPageModes pbp rmw s
    exact resolve_eq_summary (readEvents_one hm) rfl (hzpy h hm)
  | absolute =>
    obtain ⟨⟨h0, hm0⟩, hmapped⟩ := allMapped_cons.1 hmapped
    obtain ⟨⟨h1, hm1⟩, -⟩ := allMapped_cons.1 hmapped
    obtain ⟨habs, -⟩ := Resolver.resolveAbsoluteModes pbp rmw s _ (BitVec.toNat_ofNat _ _)
    exact resolve_eq_summary (readEvents_two hm0 hm1) rfl (habs h0 h1 hm0 hm1)
  | absoluteX =>
    obtain ⟨⟨h0, hm0⟩, hmapped⟩ := allMapped_cons.1 hmapped
    obtain ⟨⟨h1, hm1⟩, -⟩ := allMapped_cons.1 hmapped
    obtain ⟨-, -, -, habsx, -⟩ :=
      Resolver.resolveAbsoluteModes pbp rmw s _ (BitVec.toNat_ofNat _ _)
    exact resolve_eq_summary (readEvents_two hm0 hm1) (charge_absoluteX pbp s)
      (habsx h0 h1 hm0 hm1)
  | absoluteY =>
    obtain ⟨⟨h0, hm0⟩, hmapped⟩ := allMapped_cons.1 hmapped
    obtain ⟨⟨h1, hm1⟩, -⟩ := allMapped_cons.1 hmapped
    obtain ⟨-, -, -, -, -, -, habsy, -⟩ :=
      Resolver.resolveAbsoluteModes pbp rmw s _ (BitVec.toNat_ofNat _ _)
    exact resolve_eq_summary (readEvents_two hm0 hm1) (charge_absoluteY pbp s)
      (habsy h0 h1 hm0 hm1)
  | indirectX =>
    obtain ⟨⟨h0, hm0⟩, hmapped⟩ := allMapped_cons.1 hmapped
    obtain ⟨⟨h1, hm1⟩, hmapped⟩ := allMapped_cons.1 hmapped
    obtain ⟨⟨h2, hm2⟩, -⟩ := allMapped_cons.1 hmapped
    obtain ⟨hindx, -⟩ := Resolver.resolveIndirectX pbp rmw s _ _
      (zeroPage_toNat (Nat.mod_lt _ (by decide))) (zeroPage_succ_toNat (Nat.mod_lt _ (by decide)))
    exact resolve_eq_summary (readEvents_three hm0 hm1 hm2) rfl (hindx h0 h1 h2 hm0 hm1 hm2)
  | indirectY =>
    obtain ⟨⟨h0, hm0⟩, hmapped⟩ := allMapped_cons.1 hmapped
    obtain ⟨⟨h1, hm1⟩, hmapped⟩ := allMapped_cons.1 hmapped
    obtain ⟨⟨h2, hm2⟩, -⟩ := allMapped_cons.1 hmapped
    obtain ⟨hindy, -⟩ := Resolver.resolveIndirectY pbp rmw s _ _
      (zeroPage_toNat (answerAt s 0).isLt) (zeroPage_succ_toNat (answerAt s 0).isLt)
    exact resolve_eq_summary (readEvents_three hm0 hm1 hm2) (charge_indirectY pbp s)
      (hindy h0 h1 h2 hm0 hm1 hm2)

/-! ### The first read not mapped -/

/-- What `resolve` raises when the `k`-th address of the summary's list is the first unmapped one. -/
def unmappedAfter (d : Descriptor) (s : State) (k : Nat) (a : Word) : Fault :=
  .unmappedRead a (faulted 1 a
    { skipAnswers s k with bus := s.bus ++ readEvents s ((d.mode.addressesRead s).take k) })

theorem unmappedAfter_zero (d : Descriptor) (s : State) (a : Word) :
    unmappedAfter d s 0 a = .unmappedRead a (faulted 1 a s) := by
  simp [unmappedAfter, readEvents, skipAnswers]

theorem unmappedAfter_of_events {d : Descriptor} {s : State} {k : Nat} {events : List BusEvent}
    (a : Word) (he : readEvents s ((d.mode.addressesRead s).take k) = events) :
    unmappedAfter d s k a =
      .unmappedRead a (faulted 1 a { skipAnswers s k with bus := s.bus ++ events }) := by
  rw [unmappedAfter, he]

/-- Settles O26: by the place of the unmapped address in the mode's list. -/
theorem resolveReportsTheFirstUnmappedRead : Obligations.ResolveReportsTheFirstUnmappedRead := by
  intro d s k a hk hbefore hnone
  change resolve d s = .raised (unmappedAfter d s k a)
  obtain ⟨m, pbp, rmw⟩ := d
  cases m with
  | none | direct | outside | immediate => cases hk
  | zeroPage | zeroPageX | zeroPageY =>
    obtain ⟨-, hzp, -, hzpx, -, hzpy⟩ := Resolver.resolveZeroPageModes pbp rmw s
    match k, hk with
    | 0, hk =>
      obtain rfl := Option.some.inj hk
      simp only [unmappedAfter_zero, hzp hnone, hzpx hnone, hzpy hnone]
  | absolute | absoluteX | absoluteY =>
    obtain ⟨-, habs0, habs1, -, habsx0, habsx1, -, habsy0, habsy1⟩ :=
      Resolver.resolveAbsoluteModes pbp rmw s _ (BitVec.toNat_ofNat _ _)
    match k, hk with
    | 0, hk =>
      obtain rfl := Option.some.inj hk
      simp only [unmappedAfter_zero, habs0 hnone, habsx0 hnone, habsy0 hnone]
    | 1, hk =>
      obtain rfl := Option.some.inj hk
      obtain ⟨⟨h0, hm0⟩, -⟩ := allMapped_cons.1 hbefore
      rw [unmappedAfter_of_events _ (readEvents_one hm0)]
      simp only [habs1 h0 hm0 hnone, habsx1 h0 hm0 hnone, habsy1 h0 hm0 hnone]
  | indirectX =>
    obtain ⟨-, hindx0, hindx1, hindx2⟩ := Resolver.resolveIndirectX pbp rmw s _ _
      (zeroPage_toNat (Nat.mod_lt _ (by decide))) (zeroPage_succ_toNat (Nat.mod_lt _ (by decide)))
    match k, hk with
    | 0, hk =>
      obtain rfl := Option.some.inj hk
      rw [unmappedAfter_zero, hindx0 hnone]
    | 1, hk =>
      obtain rfl := Option.some.inj hk
      obtain ⟨⟨h0, hm0⟩, -⟩ := allMapped_cons.1 hbefore
      rw [unmappedAfter_of_events _ (readEvents_one hm0), hindx1 h0 hm0 hnone]
    | 2, hk =>
      obtain rfl := Option.some.inj hk
      obtain ⟨⟨h0, hm0⟩, hbefore⟩ := allMapped_cons.1 hbefore
      obtain ⟨⟨h1, hm1⟩, -⟩ := allMapped_cons.1 hbefore
      rw [unmappedAfter_of_events _ (readEvents_two hm0 hm1), hindx2 h0 h1 hm0 hm1 hnone]
  | indirectY =>
    obtain ⟨-, hindy0, hindy1, hindy2⟩ := Resolver.resolveIndirectY pbp rmw s _ _
      (zeroPage_toNat (answerAt s 0).isLt) (zeroPage_succ_toNat (answerAt s 0).isLt)
    match k, hk with
    | 0, hk =>
      obtain rfl := Option.some.inj hk
      rw [unmappedAfter_zero, hindy0 hnone]
    | 1, hk =>
      obtain rfl := Option.some.inj hk
      obtain ⟨⟨h0, hm0⟩, -⟩ := allMapped_cons.1 hbefore
      rw [unmappedAfter_of_events _ (readEvents_one hm0), hindy1 h0 hm0 hnone]
    | 2, hk =>
      obtain rfl := Option.some.inj hk
      obtain ⟨⟨h0, hm0⟩, hbefore⟩ := allMapped_cons.1 hbefore
      obtain ⟨⟨h1, hm1⟩, -⟩ := allMapped_cons.1 hbefore
      rw [unmappedAfter_of_events _ (readEvents_two hm0 hm1), hindy2 h0 h1 hm0 hm1 hnone]

end Sys2Proof.Machine
end

section
/-! SUPPORT. The operand accessor (42_operand_accessor.md): the first and every later access of an
instruction, the store, and what cannot fault. -/

namespace Sys2Proof.Machine

/-! ### The effective address -/

theorem effectiveAddress_of_memo {d : Descriptor} {s : State} {e : EffAddr} (hea : s.ea = some e) :
    effectiveAddress d s = .done e s := by
  simp only [effectiveAddress, hea]

theorem effectiveAddress_of_resolve_done {d : Descriptor} {s u : State} {e : EffAddr}
    (hea : s.ea = none) (hr : resolve d s = .done e u) :
    effectiveAddress d s = .done e { u with ea := some e } := by
  simp only [effectiveAddress, hea, hr, andThen_done]

/-- The first access of an instruction, by the summary of `resolve` (R148). -/
theorem effectiveAddress_first {d : Descriptor} {s : State} (hm : d.mode.resolvable = true)
    (hea : s.ea = none) (hmapped : allMapped s (d.mode.addressesRead s) = true) :
    effectiveAddress d s =
      .done (summaryAddress d s) { summaryState d s with ea := some (summaryAddress d s) } :=
  effectiveAddress_of_resolve_done hea (resolveFollowsTheSummary d s hm hmapped)

theorem not_direct_of_resolvable {m : Mode} (h : m.resolvable = true) : m ≠ .direct := by
  rintro rfl
  cases h

theorem maskAddr_summaryAddress {d : Descriptor} {s : State} {a : Word}
    (h : a.toNat = d.mode.result s % 65536) :
    maskAddr ((summaryAddress d s).setWidth 32) = a := by
  refine maskAddr_ea _ a ?_
  rw [h, summaryAddress, BitVec.toNat_ofNat]
  omega

/-! ### The commands, once the address is known -/

section Addressed

variable {i : Instr} {d : Descriptor} {s u : State} {e : EffAddr} (hd : d.mode ≠ .direct)
  (he : effectiveAddress d s = .done e u)
include hd he

theorem exec_read_mapped {h : HandlerId} {a : Word} (hi : i.readDescriptor = some d)
    (ha : maskAddr (e.setWidth 32) = a) (hm : u.rt.lookup a = some h) :
    exec i s = .next { skipAnswers u 1 with
      lr := some (answerAt u 0)
      bus := u.bus ++ [.read h a (answerAt u 0)]
      rsp := some ((answerAt u 0).setWidth 16) } := by
  subst ha
  rw [exec_readDescriptor hi, readOperand, if_neg hd, he, andThen_done, memRead_mapped hm,
    andThen_done]
  rfl

theorem exec_read_unmapped {a : Word} (hi : i.readDescriptor = some d)
    (ha : maskAddr (e.setWidth 32) = a) (hm : u.rt.lookup a = none) :
    exec i s = .fault (.unmappedRead a (faulted 1 a u)) := by
  subst ha
  rw [exec_readDescriptor hi, readOperand, if_neg hd, he, andThen_done, memRead_unmapped hm]
  rfl

theorem exec_write_addressed {v : Byte} (hi : i.writeDescriptor = some (d, v)) :
    exec i s = .next { storeOperand d.rmw v e u with rsp := none } := by
  rw [exec_writeDescriptor hi, writeOperand, if_neg hd, he, andThen_done]
  rfl

end Addressed

/-- Settles O28: the first access by the summary of `resolve`, and the read at its address. -/
theorem readOperandFirstAccess : Obligations.ReadOperandFirstAccess := by
  intro i d s h a hi hm hea hmapped ha hbound
  exact exec_read_mapped (not_direct_of_resolvable hm) (effectiveAddress_first hm hea hmapped) hi
    (maskAddr_summaryAddress ha) hbound

/-- Settles O29: the memo is the address, whatever the mode. -/
theorem readOperandMemoized : Obligations.ReadOperandMemoized := by
  intro i d s e h a hi hd hea ha hbound
  exact exec_read_mapped hd (effectiveAddress_of_memo hea) hi (maskAddr_ea e a ha) hbound

/-- Settles O30: the read at the summary's address, or at the memo, meets a default slot; fault entry
leaves nothing of the new memo (R203). -/
theorem readOperandFinalFault : Obligations.ReadOperandFinalFault := by
  intro i d s a hi hdefault
  refine ⟨fun hm hea hmapped ha => ?first, fun e hd hea ha => ?later⟩
  case first =>
    exact exec_read_unmapped (not_direct_of_resolvable hm) (effectiveAddress_first hm hea hmapped) hi
      (maskAddr_summaryAddress ha) hdefault
  case later =>
    exact exec_read_unmapped hd (effectiveAddress_of_memo hea) hi (maskAddr_ea e a ha) hdefault

/-- Settles O31: by the kind of operand command. -/
theorem resolveFaultEndsTheCommand : Obligations.ResolveFaultEndsTheCommand := by
  intro i d s f hi hd hea hr
  obtain hread | ⟨v, hwrite⟩ := descriptor_cases hi
  · exact exec_read_of_resolve_raised hread hd hea hr
  · exact exec_write_of_resolve_raised hwrite hd hea hr

/-- Settles O32: the first access by the summary of `resolve`, and the store at its address. -/
theorem writeOperandFirstAccess : Obligations.WriteOperandFirstAccess := by
  intro i d v s hi hm hea hmapped
  exact exec_write_addressed (not_direct_of_resolvable hm) (effectiveAddress_first hm hea hmapped) hi

/-- Settles O33: the memo is the address, whatever the mode. -/
theorem writeOperandMemoized : Obligations.WriteOperandMemoized := by
  intro i d v s e hi hd hea
  exact exec_write_addressed hd (effectiveAddress_of_memo hea) hi

/-! ### The store -/

theorem dummyWrite_of_lastRead {e : EffAddr} {s : State} {b : Byte} (h : s.lr = some b) :
    dummyWrite e s = memWrite (e.setWidth 32) b s := by
  simp only [dummyWrite, h]

theorem dummyWrite_of_none {e : EffAddr} {s : State} (h : s.lr = none) :
    dummyWrite e s = memWrite (e.setWidth 32) (anyByte s) (skipDraw s) := by
  simp only [dummyWrite, h]

/-- Settles O34: the dummy write and the final write, each as the events of one dispatcher write. -/
theorem storeAtTheOperand : Obligations.StoreAtTheOperand := by
  intro v e s a ha
  obtain rfl := maskAddr_ea e a ha
  refine ⟨?plain, fun b hb => ?remembered, fun hlr => ⟨anyByte s, ?free⟩⟩
  case plain => exact memWrite_eq _ v s
  case remembered =>
    rw [storeOperand, if_pos rfl, dummyWrite_of_lastRead hb, memWrite_eq, memWrite_eq]
    rfl
  case free =>
    rw [storeOperand, if_pos rfl, dummyWrite_of_none hlr, memWrite_eq, memWrite_eq]
    rfl

/-! ### What never faults (R206) -/

/-- A store at a memoized address completes in every mode. -/
theorem exec_write_completes_of_memo {i : Instr} {s : State} (hi : i.writeDescriptor ≠ none)
    (hea : s.ea ≠ none) : ∃ t, exec i s = .next t := by
  obtain ⟨⟨d, v⟩, hi⟩ := Option.ne_none_iff_exists'.1 hi
  obtain ⟨e, hea⟩ := Option.ne_none_iff_exists'.1 hea
  by_cases hd : d.mode = .direct
  · exact ⟨_, exec_write_of_direct hd hi s⟩
  · exact ⟨_, writeOperandMemoized i d v s e hi hd hea⟩

/-- An Immediate store reads nothing, so it completes in every state. -/
theorem exec_writeOperandImm_completes (p r : Bool) (v : Byte) (s : State) :
    ∃ t, exec (.writeOperandImm p r v) s = .next t := by
  cases hea : s.ea with
  | none => exact ⟨_, writeOperandFirstAccess _ ⟨.immediate, p, r⟩ v s rfl rfl hea rfl⟩
  | some e => exact exec_write_completes_of_memo nofun (by simp [hea])

/-- Settles O49: each kind by the command's own result. -/
theorem noFaultFromStores : Obligations.NoFaultFromStores := by
  intro i s hi
  obtain ⟨a, v, rfl⟩ | ⟨b, e, h, rfl⟩ | ⟨b, e, h, rfl⟩ | ⟨v, rfl⟩ | ⟨w, rfl⟩ | rfl | ⟨p, r, rfl⟩ |
    ⟨p, r, v, rfl⟩ | ⟨p, r, v, rfl⟩ | ⟨hw, hea⟩ := hi
  · exact ⟨_, exec_write a v s⟩
  · exact ⟨_, exec_installReadHandler b e h s⟩
  · exact ⟨_, exec_installWriteHandler b e h s⟩
  · exact ⟨_, exec_push v s⟩
  · exact ⟨_, exec_pushWord w s⟩
  · exact ⟨_, exec_resetForNextInstruction s⟩
  · exact ⟨_, exec_read_of_direct rfl rfl s⟩
  · exact ⟨_, exec_write_of_direct rfl rfl s⟩
  · exact exec_writeOperandImm_completes p r v s
  · exact exec_write_completes_of_memo hw hea

end Sys2Proof.Machine
end

section
/-! SUPPORT. Whole-machine rules (10_state.md): who writes what, the response, the cycle counter, the
memo, the bus events, and the invariant of the block. -/

namespace Sys2Proof.Machine

/-! ### Who writes what -/

theorem eq_writeOperandDir {i : Instr} {d : Descriptor} {v : Byte}
    (hi : i.writeDescriptor = some (d, v)) (hd : d.mode = .direct) :
    i = .writeOperandDir d.pbp d.rmw v := by
  rw [eq_writeOperand hi, Instr.writeOperand, hd]

/-- Settles O53: by the kind of command, the registers its shared operation leaves alone. -/
theorem whoWritesWhat : Obligations.WhoWritesWhat := by
  intro i s t h
  obtain ⟨_, _, _, heffect, -⟩ := exec_effect h
  refine ⟨heffect.x, heffect.y, heffect.fault, heffect.inputs, ?_⟩
  cases exec_completed h with
  | read hm =>
    obtain ⟨_, hr, -, hpc, hcyc, hsp, hea, hlr⟩ := memRead_afterReads hm
    simp [hr.a, hr.rt, hr.wt, hpc, hcyc, hsp, hea, hlr]
  | write | installReadHandler | installWriteHandler | readDirect | resetForNextInstruction => simp
  | writeDirect hi hd =>
    have hA := eq_writeOperandDir hi hd
    simp [hA]
  | readOperand hi hd he hm =>
    obtain ⟨⟨_, _, hr⟩, hsp, -⟩ := effectiveAddress_afterReads he
    obtain ⟨_, hr', -, -, -, hsp', -⟩ := memRead_afterReads hm
    have hall := hr.trans hr'
    simp [hall.a, hall.rt, hall.wt, hsp'.trans hsp, descriptor_of_read hi, hi]
  | @writeOperand i d v e u hi hd he =>
    obtain ⟨⟨_, _, hr⟩, hsp, hlr, -⟩ := effectiveAddress_afterReads he
    obtain ⟨_, -, hstore⟩ := storeOperand_eq d.rmw v e u
    simp [hstore, hr.a, hr.rt, hr.wt, hsp, hlr, descriptor_of_write hi]
  | push | pushWord w => simp [pushBytes]
  | pop hm =>
    obtain ⟨_, hr, -, -, hpc, hcyc, hea, hlr⟩ := popByte_done hm
    simp [hr.a, hr.rt, hr.wt, hpc, hcyc, hea, hlr]
  | popWord hm =>
    obtain ⟨⟨_, _, hr⟩, hpc, hcyc, hea, hlr⟩ := popBytes_done hm
    simp [hr.a, hr.rt, hr.wt, hpc, hcyc, hea, hlr]

/-! ### The response (R92) -/

theorem responsePort_of_no_fault {t : State} (h : t.fault = none) :
    responsePort t = .completed t.rsp := by
  rw [responsePort, h]

theorem not_returning_of_write {i : Instr} {p : Descriptor × Byte}
    (hi : i.writeDescriptor = some p) :
    (∀ a, i ≠ .read a) ∧ i ≠ .pop ∧ i ≠ .popWord ∧ i.readDescriptor = none := by
  refine ⟨fun a => ?_, ?_, ?_, readDescriptor_of_write hi⟩ <;> (rintro rfl; cases hi)

/-- A byte response as a number. -/
theorem byte_response (v : Byte) :
    ∃ b : Byte, Response.completed (some (v.setWidth 16)) =
      .completed (some (BitVec.ofNat 16 b.toNat)) :=
  ⟨v, by rw [BitVec.ofNat_toNat]⟩

/-- Settles O50: by the kind of command, the response its completion sets. -/
theorem responseOfACommand : Obligations.ResponseOfACommand := by
  intro i s t hf h
  obtain ⟨_, _, _, heffect, -⟩ := exec_effect h
  rw [responsePort_of_no_fault (heffect.fault.trans hf)]
  cases exec_completed h with
  | read | pop => exact ⟨fun _ => byte_response _, nofun, by simp⟩
  | readDirect hi | readOperand hi =>
    refine ⟨fun _ => byte_response _, ?_, by simp [hi]⟩
    rintro rfl
    cases hi
  | popWord => exact ⟨by simp [Instr.readDescriptor], fun _ => ⟨_, rfl⟩, by simp⟩
  | writeDirect hi hd =>
    obtain ⟨hread, hpop, hpopWord, hnone⟩ := not_returning_of_write hi
    simp [hread, hpop, hpopWord, hnone]
  | writeOperand hi =>
    obtain ⟨hread, hpop, hpopWord, hnone⟩ := not_returning_of_write hi
    simp [hread, hpop, hpopWord, hnone]
  | write | installReadHandler | installWriteHandler | resetForNextInstruction | push | pushWord =>
    simp [Instr.readDescriptor]

/-! ### The cycle counter and the memo -/

/-- Settles O54: a command without a descriptor leaves `CYC` alone, an operand command charges what
its one `resolve` does; the other acts only add. -/
theorem cyclesOnlyFromThePenalty : Obligations.CyclesOnlyFromThePenalty := by
  have hcommand (i : Instr) (s t : State) (h : exec i s = .next t) : t.cyc = s.cyc ∨
      (t.cyc = s.cyc + 1 ∧ s.ea = none ∧ ∃ d, i.descriptor = some d ∧ d.pbp = true ∧
        (d.mode = .absoluteX ∨ d.mode = .absoluteY ∨ d.mode = .indirectY)) := by
    cases hi : i.descriptor with
    | none =>
      obtain ⟨-, -, -, -, -, -, hframe, -⟩ := whoWritesWhat i s t h
      exact .inl (hframe hi).2
    | some d =>
      cases exec_access hi h with
      | direct _ _ _ hcyc | memoized _ _ _ hcyc => exact .inl hcyc
      | resolved hea _ hr _ hcyc =>
        rw [hcyc]
        exact hr.cyc.imp_right fun ⟨hc, hpbp, hmode⟩ => ⟨hc, hea, d, rfl, hpbp, hmode⟩
  refine ⟨hcommand, fun s t h => ?_⟩
  obtain ⟨_, rest, i, -, -, -, hexec⟩ | ⟨_, -, rfl⟩ | ⟨-, -, -, -, -, -, hle⟩ := step_next h
  · obtain hc | ⟨hc, -⟩ := hcommand i _ t hexec
    · exact hc.ge
    · exact hc ▸ Nat.le_succ _
  · exact le_rfl
  · exact hle

/-- Settles O57: the address an operand command memoizes is the one its `resolve` gave. -/
theorem memoizedAddressRange : Obligations.MemoizedAddressRange := by
  intro i d s t e hi h hs ht
  cases exec_access hi h with
  | direct _ hea => cases ht.symm.trans (hea.trans hs)
  | memoized hea => cases hs.symm.trans hea
  | resolved _ ht' hr =>
    obtain rfl := Option.some.inj (ht.symm.trans ht')
    exact hr.bounds.2

/-- While an address is memoized a command other than the boundary leaves it, `PC` and `CYC` alone. -/
theorem exec_keeps_memo {i : Instr} {s t : State} {e : EffAddr}
    (hi : i ≠ .resetForNextInstruction) (hs : s.ea = some e) (h : exec i s = .next t) :
    t.ea = some e ∧ t.pc = s.pc ∧ t.cyc = s.cyc := by
  cases hd : i.descriptor with
  | none =>
    obtain ⟨-, -, -, -, -, -, hcount, -, -, hmemo, -⟩ := whoWritesWhat i s t h
    exact ⟨(hmemo hd hi).1.trans hs, hcount hd⟩
  | some d =>
    cases exec_access hd h with
    | direct _ hea hpc hcyc => exact ⟨hea.trans hs, hpc, hcyc⟩
    | memoized hs' ht hpc hcyc => exact ⟨ht.trans (hs'.symm.trans hs), hpc, hcyc⟩
    | resolved hs' => cases hs.symm.trans hs'

/-- Settles O56: a step is a command, a reset or an act that touches no memo. -/
theorem memoNeverChanges : Obligations.MemoNeverChanges := by
  intro s t e hs h
  obtain ⟨w, rest, i, hin, -, hdec, hexec⟩ | ⟨rest, hin, rfl⟩ | ⟨-, -, hea, -⟩ := step_next h
  · by_cases hi : i = .resetForNextInstruction
    · subst hi
      injection hexec with ht
      exact .inr ⟨ht ▸ rfl, .inr ⟨w, rest, hin, hdec⟩⟩
    · exact .inl (exec_keeps_memo (s := { s with inputs := rest }) hi hs hexec).1
  · exact .inr ⟨rfl, .inl ⟨rest, hin⟩⟩
  · exact .inl (hea.trans hs)

/-! ### Bus events and faults over a step -/

/-- Settles O55: a command's events are those of its effect, and no other act has any. -/
theorem busEventsGoToTheBoundHandler : Obligations.BusEventsGoToTheBoundHandler := by
  intro s t h
  obtain ⟨_, _, _, -, -, -, hexec⟩ | ⟨_, -, rfl⟩ | ⟨-, -, -, -, -, hbus, -⟩ := step_next h
  · obtain ⟨events, _, _, heffect, -⟩ := exec_effect hexec
    exact ⟨events, heffect.bus, heffect.bound⟩
  · exact ⟨[], (List.append_nil _).symm, nofun⟩
  · exact ⟨[], by rw [hbus, List.append_nil], nofun⟩

/-- Settles O6: a faulted block takes no command, so a step is a reset or another act. -/
theorem onlyResetClearsAFault : Obligations.OnlyResetClearsAFault := by
  intro s t hf h
  obtain ⟨_, _, _, -, hnone, -⟩ | ⟨rest, hin, rfl⟩ | ⟨hrt, hwt, hea, hlr, hfault, hbus, -⟩ :=
    step_next h
  · exact absurd hnone hf
  · exact .inl ⟨rest, hin, rfl⟩
  · exact .inr ⟨hfault, hbus, hrt, hwt, hea, hlr⟩

/-! ### The invariant -/

theorem State.inv_iff (s : State) : s.inv = true ↔
    (s.rt.wf = true ∧ s.wt.wf = true) ∧ (∀ e, s.ea = some e → e.toNat ≤ 0x100FE) ∧
      (s.ea = none → s.lr = none) := by
  unfold State.inv
  cases s.ea <;> cases s.lr <;> simp

/-- A command's tables are the old ones or an install over them. -/
theorem exec_keeps_tables_wf {i : Instr} {s t : State} (hrt : s.rt.wf = true) (hwt : s.wt.wf = true)
    (h : exec i s = .next t) : t.rt.wf = true ∧ t.wt.wf = true := by
  cases i with
  | installReadHandler start stop hid =>
    injection h with h
    exact h ▸ ⟨Table.install_wf start stop hid s.rt hrt, hwt⟩
  | installWriteHandler start stop hid =>
    injection h with h
    exact h ▸ ⟨hrt, Table.install_wf start stop hid s.wt hwt⟩
  | _ =>
    obtain ⟨-, -, -, -, -, -, -, hrt', hwt', -⟩ := whoWritesWhat _ s t h
    exact ⟨hrt' nofun ▸ hrt, hwt' nofun ▸ hwt⟩

/-- A command keeps the memo's bound, and a last-read value only with a memo. -/
theorem exec_keeps_memo_inv {i : Instr} {s t : State}
    (hbound : ∀ e, s.ea = some e → e.toNat ≤ 0x100FE) (hlr : s.ea = none → s.lr = none)
    (h : exec i s = .next t) :
    (∀ e, t.ea = some e → e.toNat ≤ 0x100FE) ∧ (t.ea = none → t.lr = none) := by
  cases hd : i.descriptor with
  | none =>
    by_cases hi : i = .resetForNextInstruction
    · subst hi
      injection h with h
      subst h
      exact ⟨nofun, fun _ => rfl⟩
    · obtain ⟨-, -, -, -, -, -, -, -, -, hmemo, -⟩ := whoWritesWhat i s t h
      obtain ⟨hea', hlr'⟩ := hmemo hd hi
      rw [hea', hlr']
      exact ⟨hbound, hlr⟩
  | some d =>
    cases exec_access hd h with
    | direct _ hea' _ _ hlr' =>
      rw [hea', hlr']
      exact ⟨hbound, hlr⟩
    | memoized hs ht =>
      rw [ht, ← hs]
      exact ⟨hbound, fun hnone => by cases hs.symm.trans hnone⟩
    | resolved _ ht hr =>
      rw [ht]
      exact ⟨fun e he => Option.some.inj he ▸ hr.bounds.1, nofun⟩

/-- Settles O52: a command keeps the tables' form and the memo's bound, a reset makes both anew, and
no other act touches them. -/
theorem stepKeepsTheInvariant : Obligations.StepKeepsTheInvariant := by
  intro s t hinv h
  obtain ⟨⟨hrt, hwt⟩, hbound, hlr⟩ := (State.inv_iff s).1 hinv
  obtain ⟨_, rest, _, -, -, -, hexec⟩ | ⟨_, -, rfl⟩ | ⟨hrt', hwt', hea', hlr', -⟩ := step_next h
  · exact (State.inv_iff t).2
      ⟨exec_keeps_tables_wf (s := { s with inputs := rest }) hrt hwt hexec,
        exec_keeps_memo_inv (s := { s with inputs := rest }) hbound hlr hexec⟩
  · exact (State.inv_iff _).2 ⟨⟨Table.default_wf, Table.default_wf⟩, nofun, fun _ => rfl⟩
  · rw [State.inv_iff, hrt', hwt', hea', hlr']
    exact ⟨⟨hrt, hwt⟩, hbound, hlr⟩

/-- Settles O51: both tables are empty and nothing is memoized. -/
theorem resetMeetsTheInvariant : Obligations.ResetMeetsTheInvariant :=
  (State.inv_iff _).2 ⟨⟨Table.default_wf, Table.default_wf⟩, nofun, fun _ => rfl⟩

end Sys2Proof.Machine
end

section
/-! SUPPORT. Runs of commands (42_operand_accessor.md, 70_reset_and_hazards.md section 3): each rule is
one about a single command, carried through the run by induction. -/

namespace Sys2Proof.Machine

theorem runCommands_cons_next {i : Instr} {rest : List Instr} {s t : State}
    (h : runCommands (i :: rest) s = .next t) :
    ∃ u, exec i s = .next u ∧ runCommands rest u = .next t := by
  rw [runCommands] at h
  split at h
  · exact ⟨_, ‹_›, h⟩
  · cases h
  · cases h

/-! ### Last writer wins (R114) -/

/-- The first command's install, and then the others'. -/
theorem lastReadInstall_cons (i : Instr) (rest : List Instr) (a : Word)
    (before : Option HandlerId) :
    lastReadInstall (i :: rest) a before =
      lastReadInstall rest a (lastReadInstall [i] a before) := by
  cases i <;> rfl

theorem lastWriteInstall_cons (i : Instr) (rest : List Instr) (a : Word)
    (before : Option HandlerId) :
    lastWriteInstall (i :: rest) a before =
      lastWriteInstall rest a (lastWriteInstall [i] a before) := by
  cases i <;> rfl

theorem exec_lookup_rt {i : Instr} {s t : State} (h : exec i s = .next t) (a : Word) :
    t.rt.lookup a = lastReadInstall [i] a (s.rt.lookup a) := by
  cases i with
  | installReadHandler start stop hid =>
    injection h with h
    exact h ▸ Table.lookup_install start stop hid s.rt a
  | _ =>
    obtain ⟨-, -, -, -, -, -, -, hrt, -⟩ := whoWritesWhat _ s t h
    rw [hrt nofun]
    rfl

theorem exec_lookup_wt {i : Instr} {s t : State} (h : exec i s = .next t) (a : Word) :
    t.wt.lookup a = lastWriteInstall [i] a (s.wt.lookup a) := by
  cases i with
  | installWriteHandler start stop hid =>
    injection h with h
    exact h ▸ Table.lookup_install start stop hid s.wt a
  | _ =>
    obtain ⟨-, -, -, -, -, -, -, -, hwt, -⟩ := whoWritesWhat _ s t h
    rw [hwt nofun]
    rfl

/-- Settles O17, by induction on the run: each command installs over what the earlier ones left. -/
theorem lastWriterWins : Obligations.LastWriterWins := by
  intro cmds
  induction cmds with
  | nil =>
    intro s t h a
    injection h with h
    exact h ▸ ⟨rfl, rfl⟩
  | cons i rest ih =>
    intro s t h a
    obtain ⟨u, hi, hrest⟩ := runCommands_cons_next h
    obtain ⟨hrt, hwt⟩ := ih u t hrest a
    rw [lastReadInstall_cons, lastWriteInstall_cons, ← exec_lookup_rt hi, ← exec_lookup_wt hi]
    exact ⟨hrt, hwt⟩

/-! ### One resolution an instruction (R91, R163) -/

theorem insideInstruction_cons {i : Instr} {rest : List Instr} :
    insideInstruction (i :: rest) ↔
      i ≠ .resetForNextInstruction ∧ insideInstruction rest := by
  simp [insideInstruction, eq_comm]

/-- Settles O37, by induction on the run. -/
theorem singleResolution : Obligations.SingleResolution := by
  intro cmds
  induction cmds with
  | nil =>
    intro s t e _ hs h
    injection h with h
    exact h ▸ ⟨hs, rfl, rfl⟩
  | cons i rest ih =>
    intro s t e hin hs h
    obtain ⟨hi, hrest⟩ := insideInstruction_cons.1 hin
    obtain ⟨u, hu, ht⟩ := runCommands_cons_next h
    obtain ⟨hea, hpc, hcyc⟩ := exec_keeps_memo hi hs hu
    obtain ⟨hea', hpc', hcyc'⟩ := ih u t e hrest hea ht
    exact ⟨hea', hpc'.trans hpc, hcyc'.trans hcyc⟩

/-- With nothing memoized a command of descriptor `d` or of none resolves nothing and leaves `PC`
alone, or memoizes an address and advances `PC` by the mode. -/
theorem exec_advances_pc {d : Descriptor} {i : Instr} {s t : State}
    (hi : i ≠ .resetForNextInstruction) (hd : ∀ d', i.descriptor = some d' → d' = d)
    (hs : s.ea = none) (h : exec i s = .next t) :
    (t.ea = none ∧ t.pc = s.pc) ∨
    (∃ e, t.ea = some e ∧ t.pc = BitVec.ofNat 16 (s.pc.toNat + d.mode.pcAdvance)) := by
  cases hdesc : i.descriptor with
  | none =>
    obtain ⟨-, -, -, -, -, -, hcount, -, -, hmemo, -⟩ := whoWritesWhat i s t h
    exact .inl ⟨(hmemo hdesc hi).1.trans hs, (hcount hdesc).1⟩
  | some d' =>
    obtain rfl := hd d' hdesc
    cases exec_access hdesc h with
    | direct _ hea hpc => exact .inl ⟨hea.trans hs, hpc⟩
    | memoized hs' => cases hs'.symm.trans hs
    | resolved _ ht hr hpc => exact .inr ⟨_, ht, by rw [hpc, hr.pc, pc_advanced]⟩

/-- Settles O39, by induction on the run up to its one resolution; from there on `PC` stays
(`singleResolution`). -/
theorem pcAdvancesByTheMode : Obligations.PcAdvancesByTheMode := by
  intro d cmds
  induction cmds with
  | nil =>
    intro s t _ _ hs h
    injection h with h
    exact .inl (h ▸ ⟨hs, rfl⟩)
  | cons i rest ih =>
    intro s t hin hd hs h
    obtain ⟨hi, hrest⟩ := insideInstruction_cons.1 hin
    obtain ⟨hdi, hdrest⟩ := List.forall_mem_cons.1 hd
    obtain ⟨u, hu, ht⟩ := runCommands_cons_next h
    obtain ⟨hea, hpc⟩ | ⟨e, hea, hpc⟩ := exec_advances_pc hi hdi hs hu
    · rw [← hpc]
      exact ih u t hrest hdrest hea ht
    · obtain ⟨hea', hpc', -⟩ := singleResolution rest u t e hrest hea ht
      exact .inr ⟨by simp [hea'], hpc'.trans hpc⟩

/-! ### One address an instruction (R165) -/

theorem maskAddr_ea_toNat (e : EffAddr) : (maskAddr (e.setWidth 32)).toNat = e.toNat % 65536 := by
  have ha : (BitVec.ofNat 16 e.toNat).toNat = e.toNat % 65536 := BitVec.toNat_ofNat ..
  rw [maskAddr_ea e _ ha, ha]

/-- With a memo the address is the memo, and nothing has changed. -/
theorem memoized_effectiveAddress {d : Descriptor} {s u : State} {e e' : EffAddr}
    (hs : s.ea = some e) (h : effectiveAddress d s = .done e' u) : e' = e ∧ u = s := by
  rw [effectiveAddress_of_memo hs] at h
  injection h with he hu
  exact ⟨he.symm, hu.symm⟩

/-- At a memoized address an operand command's events are there. -/
theorem exec_events_at_memo {i : Instr} {s t : State} {e : EffAddr} (hi : i.descriptor ≠ none)
    (hs : s.ea = some e) (h : exec i s = .next t) :
    ∃ events, t.bus = s.bus ++ events ∧ ∀ x ∈ events, x.addr.toNat = e.toNat % 65536 := by
  cases exec_completed h with
  | readDirect | writeDirect => exact ⟨[], (List.append_nil _).symm, nofun⟩
  | readOperand _ _ he hm =>
    obtain ⟨rfl, rfl⟩ := memoized_effectiveAddress hs he
    obtain ⟨_, hr, -⟩ := memRead_afterReads hm
    exact ⟨_, hr.bus, List.forall_mem_singleton.2 (maskAddr_ea_toNat _)⟩
  | @writeOperand _ d v _ _ _ _ he =>
    obtain ⟨rfl, rfl⟩ := memoized_effectiveAddress hs he
    obtain ⟨events, hevents, hstore⟩ := storeOperand_eq d.rmw v _ _
    refine ⟨events, by rw [hstore], fun x hx => ?_⟩
    obtain ⟨_, _, rfl, -⟩ := hevents x hx
    exact maskAddr_ea_toNat _
  | _ => exact absurd rfl hi

/-- Settles O38, by induction on the run. -/
theorem idempotentAddress : Obligations.IdempotentAddress := by
  intro cmds
  induction cmds with
  | nil =>
    intro s t e _ _ h
    injection h with h
    exact ⟨[], by rw [h, List.append_nil], nofun⟩
  | cons i rest ih =>
    intro s t e hd hs h
    obtain ⟨hdi, hdrest⟩ := List.forall_mem_cons.1 hd
    obtain ⟨u, hu, ht⟩ := runCommands_cons_next h
    have hi : i ≠ .resetForNextInstruction := by
      rintro rfl
      exact hdi rfl
    obtain ⟨xs, hxs, hxat⟩ := exec_events_at_memo hdi hs hu
    obtain ⟨ys, hys, hyat⟩ := ih u t e hdrest (exec_keeps_memo hi hs hu).1 ht
    exact ⟨xs ++ ys, by rw [hys, hxs, List.append_assoc], List.forall_mem_append.2 ⟨hxat, hyat⟩⟩

/-! ### Free values (R238) -/

/-- A read-modify-write store of `i` finds an operand read before it. -/
def storeAllowed (i : Instr) (readSeen : Bool) : Prop :=
  ∀ d v, i.writeDescriptor = some (d, v) → d.mode ≠ .direct → d.rmw = true → readSeen = true

/-- `i` reads an operand elsewhere than in `A`. -/
def readsOperand (i : Instr) : Prop := ∃ d, i.readDescriptor = some d ∧ d.mode ≠ .direct

/-- The condition for a run, one command at a time. -/
theorem readBeforeStore_cons {i : Instr} {rest : List Instr} {readSeen : Bool}
    (h : readBeforeStore (i :: rest) readSeen = true) :
    storeAllowed i readSeen ∧ ∃ seen, readBeforeStore rest seen = true ∧
      (seen = true → i ≠ .resetForNextInstruction ∧ (readSeen = true ∨ readsOperand i)) := by
  rw [readBeforeStore, Bool.and_eq_true] at h
  obtain ⟨hstore, hrest⟩ := h
  refine ⟨fun d v hi hd hrmw => ?_, _, hrest, fun hseen => ?_⟩
  · simpa [hi, hd, hrmw] using hstore
  · split at hseen
    · cases hseen
    · rename_i hreset
      refine ⟨hreset, ((Bool.or_eq_true _ _).mp hseen).imp_right fun h => ?_⟩
      cases hi : i.readDescriptor with
      | none => simp [hi] at h
      | some d => exact ⟨d, hi, by simpa [hi] using h⟩

/-- After an operand read, and until the boundary, there is a last-read value. -/
theorem exec_lastRead {i : Instr} {s t : State} (hi : i ≠ .resetForNextInstruction)
    (hs : s.lr.isSome = true ∨ readsOperand i) (h : exec i s = .next t) : t.lr.isSome = true := by
  cases hd : i.readDescriptor with
  | none =>
    obtain ⟨-, -, -, -, -, -, -, -, -, -, hlr⟩ := whoWritesWhat i s t h
    rw [hlr hd hi]
    refine hs.resolve_right fun ⟨d, hd', _⟩ => ?_
    cases hd.symm.trans hd'
  | some d =>
    rw [exec_readDescriptor hd] at h
    obtain ⟨v, u, hu, rfl⟩ := completeByte_next h
    obtain ⟨hdirect, rfl, -⟩ | ⟨-, _, _, -, w, -, rfl⟩ := readOperand_done hu
    · refine hs.resolve_right fun ⟨d', hd', hne⟩ => hne ?_
      rwa [← Option.some.inj (hd.symm.trans hd')]
    · rfl

/-- A command that leaves answers to take draws no value, unless it stores with no read before. -/
theorem exec_draws_nothing {i : Instr} {s t : State} {readSeen : Bool}
    (hstore : storeAllowed i readSeen) (hseen : readSeen = true → s.lr.isSome = true)
    (h : exec i s = .next t) (ht : t.answers ≠ []) : t.draws = s.draws := by
  obtain ⟨_, n, k, heffect, hk⟩ := exec_effect h
  have hn : n < s.answers.length := by
    rwa [heffect.answers, ne_eq, List.drop_eq_nil_iff, Nat.not_le] at ht
  have hk : k = 0 := by
    by_contra hne
    obtain ⟨d, v, hi, hd, hrmw, hlr⟩ := hk hne
    have := hseen (hstore d v hi hd hrmw)
    rw [hlr] at this
    cases this
  rw [heffect.draws]
  omega

theorem runCommands_answers {cmds : List Instr} : ∀ {s t : State},
    runCommands cmds s = .next t → ∃ n, t.answers = s.answers.drop n := by
  induction cmds with
  | nil =>
    intro s t h
    injection h with h
    exact ⟨0, h ▸ rfl⟩
  | cons i rest ih =>
    intro s t h
    obtain ⟨u, hu, ht⟩ := runCommands_cons_next h
    obtain ⟨_, n, _, heffect, -⟩ := exec_effect hu
    obtain ⟨m, hm⟩ := ih ht
    exact ⟨n + m, by rw [hm, heffect.answers, List.drop_drop]⟩

/-- The rule for any `readSeen` that a last-read value backs. -/
theorem runCommands_draws_nothing {cmds : List Instr} : ∀ {s t : State} {readSeen : Bool},
    (readSeen = true → s.lr.isSome = true) → readBeforeStore cmds readSeen = true →
    runCommands cmds s = .next t → t.answers ≠ [] → t.draws = s.draws := by
  induction cmds with
  | nil =>
    intro s t _ _ _ h _
    injection h with h
    rw [h]
  | cons i rest ih =>
    intro s t readSeen hseen hcond h ht
    obtain ⟨u, hu, hrun⟩ := runCommands_cons_next h
    obtain ⟨hstore, seen, hrest, hnext⟩ := readBeforeStore_cons hcond
    have hlr (hs : seen = true) : u.lr.isSome = true :=
      exec_lastRead (hnext hs).1 ((hnext hs).2.imp_left hseen) hu
    have hu' : u.answers ≠ [] := by
      obtain ⟨n, hn⟩ := runCommands_answers hrun
      intro hnil
      exact ht (by rw [hn, hnil, List.drop_nil])
    rw [ih hlr hrest hrun ht, exec_draws_nothing hstore hseen hu hu']

/-- Settles O40: at the start it is the last-read value itself that says a read was seen. -/
theorem readBeforeStoreDrawsNothing : Obligations.ReadBeforeStoreDrawsNothing :=
  fun _ _ _ => runCommands_draws_nothing id

/-! ### The memo against the registers (R239) -/

/-- `s` with other values in the registers a memoized address makes irrelevant. -/
def withRegisters (pc : Word) (x y : Byte) (cyc : Nat) (s : State) : State :=
  { s with pc := pc, x := x, y := y, cyc := cyc }

section Registers

variable (pc : Word) (x y : Byte) (cyc : Nat)

theorem memRead_withRegisters {addr : RawAddr} {s t : State} {v : Byte}
    (h : memRead addr s = .done v t) :
    memRead addr (withRegisters pc x y cyc s) = .done v (withRegisters pc x y cyc t) := by
  obtain ⟨hid, hm, rfl, rfl⟩ := memRead_eq_done h
  exact memRead_mapped (s := withRegisters pc x y cyc s) hm

theorem memWrite_withRegisters (addr : RawAddr) (v : Byte) (s : State) :
    memWrite addr v (withRegisters pc x y cyc s) =
      withRegisters pc x y cyc (memWrite addr v s) := by
  rw [memWrite_eq, memWrite_eq]
  rfl

theorem dummyWrite_withRegisters (e : EffAddr) (s : State) :
    dummyWrite e (withRegisters pc x y cyc s) = withRegisters pc x y cyc (dummyWrite e s) := by
  cases hlr : s.lr with
  | none =>
    rw [dummyWrite_of_none hlr, dummyWrite_of_none (s := withRegisters pc x y cyc s) hlr,
      ← memWrite_withRegisters]
    rfl
  | some b =>
    rw [dummyWrite_of_lastRead hlr, dummyWrite_of_lastRead (s := withRegisters pc x y cyc s) hlr,
      memWrite_withRegisters]

theorem storeOperand_withRegisters (rmw : Bool) (v : Byte) (e : EffAddr) (s : State) :
    storeOperand rmw v e (withRegisters pc x y cyc s) =
      withRegisters pc x y cyc (storeOperand rmw v e s) := by
  cases rmw with
  | false => exact memWrite_withRegisters pc x y cyc _ v s
  | true =>
    rw [storeOperand, if_pos rfl, dummyWrite_withRegisters, memWrite_withRegisters]
    rfl

end Registers

/-- Settles O58: with a memo the address is the memo, and neither a read nor a store looks at the
four registers. -/
theorem memoWinsOverTheRegisters : Obligations.MemoWinsOverTheRegisters := by
  intro i s t pc x y cyc hi hs h
  change exec i (withRegisters pc x y cyc s) = .next (withRegisters pc x y cyc t)
  obtain ⟨e, hs⟩ := Option.ne_none_iff_exists'.1 hs
  have hmemo (d : Descriptor) : effectiveAddress d (withRegisters pc x y cyc s) =
      .done e (withRegisters pc x y cyc s) :=
    effectiveAddress_of_memo hs
  cases exec_completed h with
  | readDirect hi hd => exact exec_read_of_direct hd hi _
  | writeDirect hi hd => exact exec_write_of_direct hd hi _
  | readOperand hi hd he hm =>
    obtain ⟨rfl, rfl⟩ := memoized_effectiveAddress hs he
    rw [exec_readDescriptor hi, readOperand, if_neg hd, hmemo, andThen_done,
      memRead_withRegisters pc x y cyc hm, andThen_done]
    rfl
  | writeOperand hi hd he =>
    obtain ⟨rfl, rfl⟩ := memoized_effectiveAddress hs he
    rw [exec_write_addressed hd (hmemo _) hi, storeOperand_withRegisters]
    rfl
  | _ => exact absurd rfl hi

end Sys2Proof.Machine
end

section
/-! SUPPORT. The stack unit's commands one after another (43_stack_unit.md, 30_encoding.md section 6):
the round trip, and the word commands as two byte commands. -/

namespace Sys2Proof.Machine

/-! ### A pop that completes -/

theorem exec_pop_next {s t : State} (h : exec .pop s = .next t) :
    ∃ hid, s.rt.lookup (maskAddr (stackAddr (s.sp + 1#8))) = some hid ∧
      t = { skipAnswers s 1 with
        sp := s.sp + 1#8
        bus := s.bus ++ [.read hid (maskAddr (stackAddr (s.sp + 1#8))) (answerAt s 0)]
        rsp := some ((answerAt s 0).setWidth 16) } := by
  rw [exec_pop] at h
  cases hm : s.rt.lookup (maskAddr (stackAddr (s.sp + 1#8))) with
  | none =>
    rw [popByte_unmapped hm] at h
    cases h
  | some hid =>
    rw [popByte_mapped hm] at h
    injection h with h
    exact ⟨hid, rfl, h.symm⟩

theorem exec_popWord_of_mapped {s : State} {h0 h1 : HandlerId}
    (hm0 : s.rt.lookup (maskAddr (stackAddr (s.sp + 1#8))) = some h0)
    (hm1 : s.rt.lookup (maskAddr (stackAddr (s.sp + 2#8))) = some h1) :
    exec .popWord s = .next { skipAnswers s 2 with
      sp := s.sp + 2#8
      bus := s.bus ++ [.read h0 (maskAddr (stackAddr (s.sp + 1#8))) (answerAt s 0),
        .read h1 (maskAddr (stackAddr (s.sp + 2#8))) (answerAt s 1)]
      rsp := some (cat (answerAt s 1) (answerAt s 0)) } := by
  rw [exec_popWord, popBytes_mapped hm0 hm1]
  rfl

theorem exec_popWord_next {s t : State} (h : exec .popWord s = .next t) :
    ∃ h0 h1, t = { skipAnswers s 2 with
      sp := s.sp + 2#8
      bus := s.bus ++ [.read h0 (maskAddr (stackAddr (s.sp + 1#8))) (answerAt s 0),
        .read h1 (maskAddr (stackAddr (s.sp + 2#8))) (answerAt s 1)]
      rsp := some (cat (answerAt s 1) (answerAt s 0)) } := by
  cases hm0 : s.rt.lookup (maskAddr (stackAddr (s.sp + 1#8))) with
  | none =>
    rw [exec_popWord, popBytes_low_unmapped hm0] at h
    cases h
  | some h0 =>
    cases hm1 : s.rt.lookup (maskAddr (stackAddr (s.sp + 2#8))) with
    | none =>
      rw [exec_popWord, popBytes_high_unmapped hm0 hm1] at h
      cases h
    | some h1 =>
      rw [exec_popWord_of_mapped hm0 hm1] at h
      injection h with h
      exact ⟨h0, h1, h.symm⟩

/-! ### The word commands as two byte commands (R100) -/

theorem pushWord_eq_two_pushes (w : Word) (s : State) :
    exec (.pushWord w) s =
      runCommands [.push (BitVec.ofNat 8 (w.toNat / 256)), .push (BitVec.ofNat 8 (w.toNat % 256))]
        s := by
  simp only [runCommands, exec_pushWord, exec_push, pushBytes, highByte_eq, lowByte_eq, pushByte_eq]
  rfl

/-- Two byte pops take the bytes a word pop takes, and leave the state it leaves but for the
response. -/
theorem exec_pop_pop {s t u : State} (ht : exec .pop s = .next t) (hu : exec .pop t = .next u) :
    t.rsp = some ((answerAt s 0).setWidth 16) ∧ u.rsp = some ((answerAt s 1).setWidth 16) ∧
      exec .popWord s = .next { u with rsp := some (cat (answerAt s 1) (answerAt s 0)) } := by
  obtain ⟨h0, hm0, ht⟩ := exec_pop_next ht
  obtain ⟨h1, hm1, hu⟩ := exec_pop_next hu
  have hanswer : answerAt t 0 = answerAt s 1 := by
    rw [ht, ← answerAt_skipAnswers s 1 0]
    exact answerAt_congr rfl rfl 0
  rw [hanswer] at hu
  subst ht hu
  rw [sp_incremented_twice] at hm1
  refine ⟨rfl, rfl, ?_⟩
  rw [exec_popWord_of_mapped hm0 hm1]
  congr 1
  apply State.ext <;> simp [sp_incremented_twice]
  omega

/-- Settles O59: high byte first on the way down, low byte first on the way up. -/
theorem wordCommandsAreTwoByteCommands : Obligations.WordCommandsAreTwoByteCommands := by
  refine ⟨pushWord_eq_two_pushes, fun s t u ht hu => ?_⟩
  obtain ⟨hlo, hhi, hword⟩ := exec_pop_pop ht hu
  refine ⟨answerAt s 0, answerAt s 1, ?_, ?_, ?_⟩
  · rw [hlo, BitVec.ofNat_toNat]
  · rw [hhi, BitVec.ofNat_toNat]
  · rw [hword, cat_eq_ofNat]

/-! ### The round trip (R186) -/

theorem writeEvents_bound {s : State} {a : Word} (v : Byte) (h : s.wt.lookup a ≠ none) :
    ∃ hid, writeEvents s a v = [.write hid a v] := by
  obtain ⟨hid, hm⟩ := Option.ne_none_iff_exists'.1 h
  exact ⟨hid, by simp only [writeEvents, hm]⟩

theorem cat_bytes (w : Word) : cat (w.extractLsb' 8 8) (w.extractLsb' 0 8) = w := by
  apply BitVec.eq_of_toNat_eq
  rw [cat_toNat, wordOf, extract_toNat, extract_toNat]
  omega

/-- A byte pushed and popped comes back. -/
theorem push_pop_round_trip {v : Byte} {s t u : State}
    (hbound : s.wt.lookup (maskAddr (stackAddr s.sp)) ≠ none)
    (ht : exec (.push v) s = .next t) (hu : exec .pop t = .next u)
    (hstores : storesAt (maskAddr (stackAddr s.sp)) (t.bus.drop s.bus.length)
      (u.bus.drop t.bus.length)) : u.rsp = some (v.setWidth 16) ∧ u.sp = s.sp := by
  obtain ⟨w, hw⟩ := writeEvents_bound v hbound
  rw [exec_push, pushByte_eq, hw] at ht
  injection ht with ht
  have hsp : t.sp + 1#8 = s.sp := by
    rw [← ht]
    exact BitVec.sub_add_cancel s.sp 1#8
  have hbus : t.bus = s.bus ++ [.write w (maskAddr (stackAddr s.sp)) v] := by rw [← ht]
  obtain ⟨h, -, rfl⟩ := exec_pop_next hu
  simp only [hsp, hbus, List.drop_left] at hstores ⊢
  have hv : answerAt t 0 = v :=
    hstores v (by simp [lastWritten]) _ (by simp [firstAnswer])
  exact ⟨by rw [hv], trivial⟩

/-- A word pushed and popped comes back: its two bytes stand at two addresses. -/
theorem pushWord_popWord_round_trip {w : Word} {s t u : State}
    (hbound1 : s.wt.lookup (maskAddr (stackAddr s.sp)) ≠ none)
    (hbound2 : s.wt.lookup (maskAddr (stackAddr (s.sp + 255#8))) ≠ none)
    (ht : exec (.pushWord w) s = .next t) (hu : exec .popWord t = .next u)
    (hstores1 : storesAt (maskAddr (stackAddr s.sp)) (t.bus.drop s.bus.length)
      (u.bus.drop t.bus.length))
    (hstores2 : storesAt (maskAddr (stackAddr (s.sp + 255#8))) (t.bus.drop s.bus.length)
      (u.bus.drop t.bus.length)) : u.rsp = some w ∧ u.sp = s.sp := by
  obtain ⟨w1, hw1⟩ := writeEvents_bound (w.extractLsb' 8 8) hbound1
  obtain ⟨w2, hw2⟩ := writeEvents_bound (w.extractLsb' 0 8) hbound2
  have hne : maskAddr (stackAddr s.sp) ≠ maskAddr (stackAddr (s.sp + 255#8)) := by
    intro h
    have := congrArg BitVec.toNat h
    rw [maskAddr_stack_toNat, maskAddr_stack_toNat, BitVec.toNat_add, BitVec.toNat_ofNat] at this
    omega
  rw [exec_pushWord, pushBytes_eq, hw1, hw2, List.append_assoc] at ht
  injection ht with ht
  have hsp2 : t.sp + 1#8 = s.sp + 255#8 := by
    rw [← ht]
    exact BitVec.add_assoc s.sp 254#8 1#8
  have hsp1 : t.sp + 2#8 = s.sp := by
    rw [← ht]
    exact (BitVec.add_assoc s.sp 254#8 2#8).trans (BitVec.add_zero s.sp)
  have hbus : t.bus = s.bus ++ [.write w1 (maskAddr (stackAddr s.sp)) (w.extractLsb' 8 8),
      .write w2 (maskAddr (stackAddr (s.sp + 255#8))) (w.extractLsb' 0 8)] := by
    rw [← ht]
    rfl
  obtain ⟨h2, h1, rfl⟩ := exec_popWord_next hu
  simp only [hsp1, hsp2, hbus, List.drop_left] at hstores1 hstores2 ⊢
  have hlo : answerAt t 0 = w.extractLsb' 0 8 :=
    hstores2 _ (by simp [lastWritten]) _ (by simp [firstAnswer])
  have hhi : answerAt t 1 = w.extractLsb' 8 8 :=
    hstores1 _ (by simp [lastWritten, hne.symm]) _ (by simp [firstAnswer, hne.symm])
  exact ⟨by rw [hhi, hlo, cat_bytes], trivial⟩

/-- Settles O45: the word and the byte, each at the addresses of its stores. -/
theorem stackRoundTrip : Obligations.StackRoundTrip := by
  refine ⟨fun w s t u a1 a2 ha1 ha2 => ?word, fun v s t u a ha => ?byte⟩
  case word =>
    obtain rfl := maskAddr_stack s.sp a1 ha1
    obtain rfl := maskAddr_stack_advanced ha2
    exact pushWord_popWord_round_trip
  case byte =>
    obtain rfl := maskAddr_stack s.sp a ha
    rw [BitVec.ofNat_toNat]
    exact push_pop_round_trip

end Sys2Proof.Machine
end

section
/-! SUPPORT. Launch, the environment's acts and the command port (10_state.md, 20_memory.md R64), and
the dispatcher's masked and default slots (30_encoding.md R83, 40_dispatcher.md R115). -/

namespace Sys2Proof.Machine

/-! ### Launch and the environment -/

/-- Settles O1: `State.reset`, register by register. -/
theorem launchState : Obligations.LaunchState :=
  ⟨fun a => ⟨Table.lookup_default a, Table.lookup_default a⟩, rfl, rfl, rfl, rfl, rfl, rfl, rfl, rfl,
    rfl, rfl⟩

/-- Settles O3: each act is a fetch that settles in its own state. -/
theorem environmentActs : Obligations.EnvironmentActs := by
  intro s rest
  refine ⟨fun h => ?_, fun v h => ?_, fun v h => ?_, fun v h => ?_, fun v h => ?_, fun v h => ?_,
    fun n h => ?_⟩
  all_goals exact step_of_fetch_settled (by simp only [fetch, h])

theorem step_of_fetch_accepted {s t : State} {i : Instr} (h : fetch s = .accepted i t) :
    step s = exec i t := by
  simp only [step, h]

theorem present_of_decode_ok {s : State} {w : CmdWord} {i : Instr} (hf : s.fault = none)
    (hi : decode w = .ok i) : present w s = .accepted i s := by
  simp only [present, hf, hi]

/-- Settles O4: the word taken, accepted and executed. -/
theorem stepRunsTheDecodedCommand : Obligations.StepRunsTheDecodedCommand := by
  intro s w rest i hin hf hi
  refine step_of_fetch_accepted ?_
  rw [fetch_command hin]
  exact present_of_decode_ok (s := { s with inputs := rest }) hf hi

/-! ### The dispatcher -/

theorem memRead_congr {a b : RawAddr} (h : maskAddr a = maskAddr b) (s : State) :
    memRead a s = memRead b s := by
  unfold memRead
  rw [h]

/-- Settles O13: the dispatcher looks at the masked address only. -/
theorem highAddressBitsIgnored : Obligations.HighAddressBitsIgnored := by
  intro a b v s h
  have hmask : maskAddr a = maskAddr b :=
    maskAddr_of a (maskAddr b) ((BitVec.toNat_setWidth 16 b).trans h.symm)
  rw [exec_read, exec_read, exec_write, exec_write, memRead_congr hmask, memWrite_eq, memWrite_eq,
    hmask]
  exact ⟨rfl, rfl⟩

/-- Settles O18: every slot is at its default, so `ReadResult` and `WriteResult` say the rest. -/
theorem beforeInstallation : Obligations.BeforeInstallation := by
  intro s hrt hwt addr v
  have ha : (maskAddr addr).toNat = addr.toNat % 65536 := BitVec.toNat_setWidth 16 addr
  obtain ⟨-, hread⟩ := readResult addr _ s ha
  obtain ⟨-, hwrite⟩ := writeResult addr _ v s ha
  exact ⟨⟨_, _, hread (hrt _), ha, rfl⟩, hwrite (hwt _)⟩

end Sys2Proof.Machine
end
